-- ==== Sys2Proof/Machine/Arith.lean ====
section
/-! DEFINITION. The pseudocode primitives of 00_scope.md R11, over exact integers. `x / m` and `x % m` with `m > 0` are
the spec's `floor(x / m)` and `fmod(x, m)`. -/

namespace Sys2Proof.Machine

/-- `2^n` as an integer. -/
def pow2 (n : Nat) : Int := ((2 ^ n : Nat) : Int)

/-- `x >> r`, the arithmetic right shift `floor(x / 2^r)` (R11). -/
def shr (x : Int) (r : Nat) : Int := x / pow2 r

/-- `x << g`, which is `x * 2^g` (R11). -/
def shl (x : Int) (g : Nat) : Int := x * pow2 g

/-- `bitlen(n)` for `n >= 0`: the least `k` with `n < 2^k` (R11). -/
def bitlen (n : Int) : Nat := if n ≤ 0 then 0 else Nat.log2 n.toNat + 1

/-- `bit(n, i)` (R11). -/
def bit (n : Int) (i : Nat) : Int := n / pow2 i % 2

/-- `n[h:l]` for `h >= l`: the unsigned value of bits `h` down to `l` (R11). -/
def slice (n : Int) (h l : Nat) : Int := n / pow2 l % pow2 (h - l + 1)

/-- `setbits(n, h, l, x)`: bits `[h:l]` replaced by `x`, all others unchanged (R11). -/
def setbits (n : Int) (h l : Nat) (x : Int) : Int := n - slice n h l * pow2 l + x * pow2 l

/-- `{a, b}_k`, concatenation with `a` the more significant segment (R11). -/
def concat (a b : Int) (k : Nat) : Int := a * pow2 k + b

/-- `sext_w(u)` for `w >= 1` and `0 <= u < 2^w` (R11). -/
def sext (w : Nat) (u : Int) : Int := if u ≥ pow2 (w - 1) then u - pow2 w else u

/-- `xor_top_w(u)` for `w >= 1` and `0 <= u < 2^w`: bit `w-1` inverted (R11). -/
def xorTop (w : Nat) (u : Int) : Int := if u ≥ pow2 (w - 1) then u - pow2 (w - 1) else u + pow2 (w - 1)

end Sys2Proof.Machine
end

