-- ==== Sys2Proof/Word.lean ====
section
/-! DEFINITION. The command word and the plain data that travels through the core's ports: containers, payloads,
statuses and responses (00_scope.md R12, R13; 10_state.md R16, R17; 60_exceptions.md R76), and the closed sets that
command fields name (30_encoding.md R40, R41). -/

namespace Sys2Proof

/-- The command word, `CMD_W` = 32 bits (R8, R39). It is never split into bytes (R30). -/
abbrev Word := BitVec 32

/-- The three tie-break policies: "exactly three" (R8; 90_conflicts.md C1). -/
inductive TieBreak where
  | halfUp
  | halfAway
  | halfEven
deriving DecidableEq, Repr

/-- What field `DIR` of a command word says (R40): a policy, or the value `0b11` that names none. -/
inductive Dir where
  | halfUp
  | halfAway
  | halfEven
  /-- `DIR = 0b11`: a legal word that names no policy. -/
  | unsupported
deriving DecidableEq, Repr

/-- What field `SW` of a command word says: the size of a symbol (R41). -/
inductive SymWidth where
  | byte
  | halfword
  | word
  | doubleword
deriving DecidableEq, Repr

/-- A container, the pair `(data, width)` of integers (R13). Both fields are integers, so that an ill-formed pair on a
port (R58) can be written down; a container is well-formed by `Container.wf`. -/
structure Container where
  data  : Int
  width : Int
deriving DecidableEq, Repr, Inhabited

/-- The three kinds of payload (R17). -/
inductive PayloadKind where
  | int
  | cont
  | list
deriving DecidableEq, Repr

/-- A payload: a signed integer, a container, or a list of bit indices (R17). A requester's variable holds one of the
same three (R21). -/
inductive Payload where
  | int (v : Int)
  | cont (c : Container)
  | list (indices : List Nat)
deriving DecidableEq, Repr, Inhabited

/-- The kind of a payload. -/
def Payload.kind : Payload → PayloadKind
  | .int _ => .int
  | .cont _ => .cont
  | .list _ => .list

/-- The statuses a response can carry (R76). -/
inductive Status where
  | ok
  | configurationError
  | domainError
  | rangeError
  | illegalCommand
deriving DecidableEq, Repr, Inhabited

/-- A response: a status, and a payload only when the status is OK (R17). It carries nothing else. -/
structure Response where
  status  : Status
  payload : Option Payload
deriving DecidableEq, Repr, Inhabited

/-- `return v`: status `OK` and payload `v` (R12). -/
def Response.ret (p : Payload) : Response := ⟨.ok, some p⟩

/-- `raise E`: status `E` and no payload (R12, R79). -/
def Response.raise (e : Status) : Response := ⟨e, none⟩

end Sys2Proof
end

