-- ==== Sys2Proof/Config.lean ====
section
/-! DEFINITION. What an instance of the hardware fixes, and the one free value the spec leaves open: the widths of the
ports (00_scope.md R8, R14) and what the response port shows before the first response (70_reset_and_hazards.md R89;
93_implementation_defined.md, "any value"). -/

namespace Sys2Proof

/-- The implementation parameters `DATA_W` and `MAX_BF_W` of R8. `none` is the reference value, unbounded. -/
structure Config.Ports where
  /-- `DATA_W`: width of each signed operand slot and of the signed result payload. -/
  dataW  : Option Nat
  /-- `MAX_BF_W`: the largest container width the container ports carry. -/
  maxBfW : Option Nat
deriving DecidableEq, Repr

/-- The reference instance: both parameters unbounded (R8). With it no request is refused (R14). -/
def Config.reference : Config.Ports := ⟨none, none⟩

/-- A free value (log entry 7): what the response port shows while it holds no response, indexed by how many requests
have been answered. Nothing is known of it: "unspecified until the first response, and a claim may not read
it" (R26, R89). -/
opaque Config.freeOutput : Nat → Response

end Sys2Proof
end

