-- ==== Sys2Proof/Syntax.lean ====
section
/-! DEFINITION. The instructions: one constructor per row of spec/opcode_table.json (30_encoding.md R42). A constructor
holds the mode fields its row uses; every numeric argument and every container comes from the request's slots (R43), so
no operand stands here. -/

namespace Sys2Proof

/-- The 21 operations of the opcode map (R42), with the fields each uses. -/
inductive Instr where
  /-- `clip` (R50); `sym` is field `SYM`. -/
  | clip (sym : Bool)
  /-- `wrap` (R51). -/
  | wrap
  /-- `round` (R54); fields `DIR` and `CLP`. -/
  | round (dir : Dir) (clp : Bool)
  /-- `uround` (R55); fields `DIR` and `CLP`. -/
  | uround (dir : Dir) (clp : Bool)
  /-- `trunc` (R56); field `SYM`. -/
  | trunc (sym : Bool)
  /-- `requant` (R57); fields `DIR`, `RLSB` and `CMSB`. -/
  | requant (dir : Dir) (rlsb : Bool) (cmsb : Bool)
  /-- `bf.new` (R59); field `WOMIT`. -/
  | bfNew (womit : Bool)
  /-- `bf.getbit` (R60). -/
  | bfGetbit
  /-- `bf.get` (R61). -/
  | bfGet
  /-- `bf.setbit` (R62). -/
  | bfSetbit
  /-- `bf.set` (R63). -/
  | bfSet
  /-- `bf.rev` (R64). -/
  | bfRev
  /-- `bf.ones` (R65). -/
  | bfOnes
  /-- `bf.zeros` (R66). -/
  | bfZeros
  /-- `invtop` (R67). -/
  | invtop
  /-- `sv.new` (R69); fields `SW` and `WOMIT`. -/
  | svNew (sw : SymWidth) (womit : Bool)
  /-- `sv.get` (R70); field `SW`. -/
  | svGet (sw : SymWidth)
  /-- `sv.getr` (R71); field `SW`. -/
  | svGetr (sw : SymWidth)
  /-- `sv.set` (R72); field `SW`. -/
  | svSet (sw : SymWidth)
  /-- `sv.setr` (R73); field `SW`. -/
  | svSetr (sw : SymWidth)
  /-- `bf.cat` (R74). -/
  | bfCat
deriving DecidableEq, Repr

end Sys2Proof
end

