-- ==== Sys2Proof/Machine/State.lean ====
section
/-! DEFINITION. The state of the machine: the request in flight and the response at the interface, the requester's
variables, program and statuses, and the instance's ports (10_state.md R16 to R26; 30_encoding.md R49;
70_reset_and_hazards.md R89, R90). The core itself holds no state (R25, R26). -/

namespace Sys2Proof.Machine

/-- The name of a requester's variable. The spec writes `$name`; a name is a number here (log entry 10). -/
abbrev VarName := Nat

/-- Why the machine stops with a fault. -/
inductive Fault where
  /-- Raised by a meaning when no request is in flight; `step` never runs one then. Safe: the machine stops where there
  is nothing to answer (log entry 15). -/
  | noRequestInFlight
  /-- Raised when a line reads variable `x`, which holds no value: a program fault, "the program has no end state" (R49,
  R96). Safe: the spec's own fault. -/
  | unsetVariable (x : VarName)
  /-- Raised when a line reads variable `x`, whose value is of the wrong kind for its slot: a program fault (R49, R96).
  Safe: the spec's own fault. -/
  | wrongKind (x : VarName)
deriving DecidableEq, Repr

/-- Why the machine gives a request no meaning. -/
inductive Refusal where
  /-- Raised by `exec` for an instruction that has no meaning yet. Safe. -/
  | notModelled (mnemonic : String)
  /-- Raised when an operand slot the opcode reads, or a container operand, lies outside its finite port (R14). Safe: the
  spec refuses the request too (R80). -/
  | operandOutsidePort
  /-- Raised when the exact payload of the rule lies outside its finite port (R14). Safe: the spec refuses the request
  too (R80). -/
  | payloadOutsidePort
  /-- Raised when a line uses container variable `x`, which a second requester uses as well (R38, R94). Safe: "A model
  must refuse, not interleave". -/
  | sharedVariable (x : VarName)
deriving DecidableEq, Repr

/-- A request: the command word, the signed slots `a` to `e` and the container slots `ca`, `cb` (R16). -/
structure Request where
  cmd : Word
  ca  : Container
  cb  : Container
  a   : Int
  b   : Int
  c   : Int
  d   : Int
  e   : Int
deriving DecidableEq, Repr

/-- What a program line puts in a signed slot: an integer literal or a variable (R49). A slot that the line does not name
is the literal 0 (R47). -/
inductive IntOperand where
  | lit (n : Int)
  | var (x : VarName)
deriving DecidableEq, Repr

/-- What a program line puts in a container slot: a variable (R49), or nothing, and the slot then holds 0 (R47). -/
inductive ContOperand where
  | unnamed
  | var (x : VarName)
deriving DecidableEq, Repr

/-- A program line (R49): the variable its payload goes to, if any, its command word, and an operand for each slot. -/
structure Line where
  dst : Option VarName
  cmd : Word
  ca  : ContOperand
  cb  : ContOperand
  a   : IntOperand
  b   : IntOperand
  c   : IntOperand
  d   : IntOperand
  e   : IntOperand
deriving DecidableEq, Repr

/-- The machine's state. -/
structure State where
  /-- The instance's parameters `DATA_W` and `MAX_BF_W` (R8), constant (log entry 1). -/
  ports : Config.Ports
  /-- The request in flight, one at most (R26, R35). -/
  inFlight : Option Request
  /-- The response last delivered; none since reset (R26, R89; log entry 7). -/
  response : Option Response
  /-- The requester's variables that hold a value, names strictly rising (R21, R26). -/
  vars : List (VarName × Payload)
  /-- The requester's program (R49). -/
  program : List Line
  /-- The number `k` of the line to issue, or whose request is in flight (R18, R49). -/
  pos : Nat
  /-- The statuses `st[0..k-1]` received so far (R49). -/
  statuses : List Status
  /-- Container variables that a second requester uses as well (R38, R94): an input from outside (log entry 12). -/
  shared : List VarName
  /-- Whether reset is asserted (R89): an input from outside (log entry 9). -/
  resetAsserted : Bool
deriving DecidableEq, Repr

/-- The machine right after reset: no request in flight (R89), no response delivered (R89), no variable with a value
(R90), no program, and the reference ports (R8). -/
def State.reset : State where
  ports := Config.reference
  inFlight := none
  response := none
  vars := []
  program := []
  pos := 0
  statuses := []
  shared := []
  resetAsserted := false

end Sys2Proof.Machine
end

