-- ==== Sys2Proof/Machine/Ops.lean ====
section
/-! DEFINITION. The operations on the machine's state that every instruction shares: the variable store, the ports,
delivering a response (an error's is the same operation), and answering a request by a rule. -/

namespace Sys2Proof.Machine

/-! ## The requester's variables (R21, R49)

A list of names and values, names strictly rising, so that equal stores are equal data. A name that is not listed holds
no value. -/

/-- The value a variable holds, if any. -/
def lookup (x : VarName) : List (VarName × Payload) → Option Payload
  | [] => none
  | (y, p) :: rest => if x = y then some p else lookup x rest

/-- `$x <- p`: the variable takes the value, every other keeps its own (R21, R49). -/
def store (x : VarName) (p : Payload) : List (VarName × Payload) → List (VarName × Payload)
  | [] => [(x, p)]
  | (y, q) :: rest =>
    if x < y then (x, p) :: (y, q) :: rest
    else if x = y then (x, p) :: rest
    else (y, q) :: store x p rest

/-- The canonical form of a variable store: names strictly rising. -/
abbrev VarsWf (vars : List (VarName × Payload)) : Prop := vars.Pairwise (fun u v => u.1 < v.1)

/-! ## The ports (R8, R14) -/

/-- Whether an integer lies in `[-2^(DATA_W-1), 2^(DATA_W-1)-1]` (R8). -/
def intFits (p : Config.Ports) (x : Int) : Bool :=
  match p.dataW with
  | none => true
  | some w => decide (1 ≤ w ∧ -pow2 (w - 1) ≤ x ∧ x < pow2 (w - 1))

/-- Whether a container port carries the container: it is not wider than `MAX_BF_W`, neither its width nor its data (R8,
R14, R16; log entry 2). -/
def contFits (p : Config.Ports) (c : Container) : Bool :=
  match p.maxBfW with
  | none => true
  | some m => decide (c.width ≤ m ∧ c.data < pow2 m)

/-- Whether a response's payload lies within its port (R14). A list of bit indices has no port width (log entry 4). -/
def payloadFits (p : Config.Ports) (r : Response) : Bool :=
  match r.payload with
  | some (.int v) => intFits p v
  | some (.cont c) => contFits p c
  | some (.list _) => true
  | none => true

/-- How many slots of each kind an operation reads. Container slots are read from `ca` on, signed slots from `a` on, with
none left out between (R43). -/
structure SlotUse where
  conts : Nat
  ints  : Nat
deriving DecidableEq, Repr

/-- The container slots an operation reads. -/
def Request.contsRead (q : Request) (u : SlotUse) : List Container := [q.ca, q.cb].take u.conts

/-- The signed slots an operation reads. -/
def Request.intsRead (q : Request) (u : SlotUse) : List Int := [q.a, q.b, q.c, q.d, q.e].take u.ints

/-- Whether every slot an operation reads lies within its port (R14). A slot that is not read is ignored (R16). -/
def operandsFit (p : Config.Ports) (u : SlotUse) (q : Request) : Bool :=
  (q.contsRead u).all (contFits p) && (q.intsRead u).all (intFits p)

/-! ## Responses -/

/-- The core delivers its response: the request is no longer in flight, and nothing else changes (R17, R25, R33). -/
def State.deliver (s : State) (r : Response) : State := { s with inFlight := none, response := some r }

/-- Raising an error, this hardware's one form of an exception: an in-band response with the error's status and no
payload. There is no trap, no saved state and no vector, and nothing to return from (R79, R83, R84). -/
def State.raiseError (s : State) (e : Status) : State := s.deliver (Response.raise e)

/-- Answer the request in flight by a rule. It is refused when a slot the opcode reads or the exact payload lies outside
its port (R14; log entry 3); otherwise the rule's response is delivered. -/
def answer (u : SlotUse) (rule : Request → Response) (s : State) : Host.Outcome State Fault Refusal :=
  match s.inFlight with
  | none => .fault .noRequestInFlight
  | some q =>
    if operandsFit s.ports u q then
      if payloadFits s.ports (rule q) then .next (s.deliver (rule q))
      else .refused .payloadOutsidePort
    else .refused .operandOutsidePort

/-- What the response port shows: the response just delivered; a free value before the first one (R89) and while a
request waits for its response, of which the spec says nothing (R17, R96; log entry 7). No step reads it. -/
def State.outputPort (s : State) : Response :=
  match s.inFlight, s.response with
  | none, some r => r
  | some _, _ | none, none => Config.freeOutput s.statuses.length

end Sys2Proof.Machine
end

