-- ==== Sys2Proof/Machine/Operands.lean ====
section
/-! DEFINITION. Operand assembly (30_encoding.md R43): which slots each operation reads; the size a symbol field names
(R41); the container operand check (44_bitfield.md R58); the fit rule of a written value (R63, R72, R73); and the
symbols a container has (45_symbol_views.md R68). -/

namespace Sys2Proof.Machine

/-- The slots each operation reads, the table of R43. `output_width` is read only when `CLP = 1`, the width and the
symbol count only when `WOMIT = 0`. -/
def slotUse : Instr → SlotUse
  | .clip _ => ⟨0, 2⟩
  | .wrap => ⟨0, 2⟩
  | .round _ clp => ⟨0, if clp then 3 else 2⟩
  | .uround _ clp => ⟨0, if clp then 3 else 2⟩
  | .trunc _ => ⟨0, 2⟩
  | .requant _ _ _ => ⟨0, 5⟩
  | .bfNew womit => ⟨0, if womit then 1 else 2⟩
  | .bfGetbit => ⟨1, 1⟩
  | .bfGet => ⟨1, 2⟩
  | .bfSetbit => ⟨1, 2⟩
  | .bfSet => ⟨1, 3⟩
  | .bfRev => ⟨1, 0⟩
  | .bfOnes => ⟨1, 0⟩
  | .bfZeros => ⟨1, 0⟩
  | .invtop => ⟨0, 2⟩
  | .svNew _ womit => ⟨0, if womit then 1 else 2⟩
  | .svGet _ => ⟨1, 1⟩
  | .svGetr _ => ⟨1, 2⟩
  | .svSet _ => ⟨1, 2⟩
  | .svSetr _ => ⟨1, 3⟩
  | .bfCat => ⟨2, 0⟩

/-- The symbol width `sw = 8 * 2^SW` (R41). -/
def symbolBits : SymWidth → Nat
  | .byte => 8
  | .halfword => 16
  | .word => 32
  | .doubleword => 64

/-- Whether a container operand passes the check of R58: `width >= 1` and `0 <= data < 2^width`. -/
def contOk (c : Container) : Bool := decide (1 ≤ c.width ∧ 0 ≤ c.data ∧ c.data < pow2 c.width.toNat)

/-- `check(C)` before the rest of a rule: an ill-formed container raises RangeError (R58). -/
def checked (c : Container) (rest : Response) : Response := if contOk c then rest else .raise .rangeError

/-- The value a range write of `n` bits stores: the sentinel `-1` sets all bits, any other value must fit in `n` bits
(R63, R72, R73). -/
def writtenValue (n : Nat) (x : Int) : Option Int :=
  if x = -1 then some (pow2 n - 1)
  else if x < 0 ∨ x ≥ pow2 n then none
  else some x

/-- Write bits `[h:l]` of a container, if the value fits: the new container, of the same width (R63, R22). -/
def writeRange (c : Container) (h l : Nat) (x : Int) : Response :=
  match writtenValue (h - l + 1) x with
  | some y => .ret (.cont ⟨setbits c.data h l y, c.width⟩)
  | none => .raise .rangeError

/-- The highest bit of symbol `s`, `(s+1)*sw - 1` (R68). -/
def symbolTop (sw : Nat) (s : Int) : Nat := ((s + 1) * sw - 1).toNat

/-- The lowest bit of symbol `s`, `s*sw` (R68). -/
def symbolBottom (sw : Nat) (s : Int) : Nat := (s * sw).toNat

end Sys2Proof.Machine
end

