-- ==== Sys2Proof/Machine/Bitfield.lean ====
section
/-! DEFINITION. The bit-field slicer and setter (44_bitfield.md): R58 to R67. -/

namespace Sys2Proof.Machine

/-- The rule of `bf.new` (R59). -/
def bfNewRule (womit : Bool) (q : Request) : Response :=
  if q.a < 0 then .raise .domainError
  else if womit then .ret (.cont ⟨q.a, max 1 (bitlen q.a : Int)⟩)
  else if q.b ≤ 0 then .raise .rangeError
  else if (bitlen q.a : Int) > q.b then .raise .rangeError
  else .ret (.cont ⟨q.a, q.b⟩)

/-- The rule of `bf.getbit` (R60). -/
def bfGetbitRule (q : Request) : Response :=
  checked q.ca <|
    if q.a < 0 ∨ q.a ≥ q.ca.width then .raise .rangeError
    else .ret (.int (bit q.ca.data q.a.toNat))

/-- The rule of `bf.get` (R61). -/
def bfGetRule (q : Request) : Response :=
  checked q.ca <|
    if q.a < q.b then .raise .rangeError
    else if q.b < 0 ∨ q.a ≥ q.ca.width then .raise .rangeError
    else .ret (.int (slice q.ca.data q.a.toNat q.b.toNat))

/-- The rule of `bf.setbit` (R62): only 0 and 1 are accepted. -/
def bfSetbitRule (q : Request) : Response :=
  checked q.ca <|
    if q.a < 0 ∨ q.a ≥ q.ca.width then .raise .rangeError
    else if q.b ≠ 0 ∧ q.b ≠ 1 then .raise .rangeError
    else .ret (.cont ⟨setbits q.ca.data q.a.toNat q.a.toNat q.b, q.ca.width⟩)

/-- The rule of `bf.set` (R63). -/
def bfSetRule (q : Request) : Response :=
  checked q.ca <|
    if q.a < q.b then .raise .rangeError
    else if q.b < 0 ∨ q.a ≥ q.ca.width then .raise .rangeError
    else writeRange q.ca q.a.toNat q.b.toNat q.c

/-- The bits of a container in reverse order over its whole width (R64). -/
def reversed (c : Container) : Int :=
  ((List.range c.width.toNat).map fun i => bit c.data i * pow2 (c.width.toNat - 1 - i)).sum

/-- The indices, ascending, of the bits of a container that hold `b` (R65, R66). -/
def positions (c : Container) (b : Int) : List Nat :=
  (List.range c.width.toNat).filter fun i => bit c.data i = b

/-- The rule of `invtop` (R67). -/
def invtopRule (q : Request) : Response :=
  if q.b ≤ 0 then .raise .rangeError
  else .ret (.int (xorTop q.b.toNat (q.a % pow2 q.b.toNat)))

/-- `bf.new` (R59). -/
def execBfNew (womit : Bool) (s : State) : Host.Outcome State Fault Refusal :=
  answer (slotUse (.bfNew womit)) (bfNewRule womit) s

/-- `bf.getbit` (R60). -/
def execBfGetbit (s : State) : Host.Outcome State Fault Refusal := answer (slotUse .bfGetbit) bfGetbitRule s

/-- `bf.get` (R61). -/
def execBfGet (s : State) : Host.Outcome State Fault Refusal := answer (slotUse .bfGet) bfGetRule s

/-- `bf.setbit` (R62). -/
def execBfSetbit (s : State) : Host.Outcome State Fault Refusal := answer (slotUse .bfSetbit) bfSetbitRule s

/-- `bf.set` (R63). -/
def execBfSet (s : State) : Host.Outcome State Fault Refusal := answer (slotUse .bfSet) bfSetRule s

/-- `bf.rev` (R64). -/
def execBfRev (s : State) : Host.Outcome State Fault Refusal :=
  answer (slotUse .bfRev) (fun q => checked q.ca (.ret (.int (reversed q.ca)))) s

/-- `bf.ones` (R65). -/
def execBfOnes (s : State) : Host.Outcome State Fault Refusal :=
  answer (slotUse .bfOnes) (fun q => checked q.ca (.ret (.list (positions q.ca 1)))) s

/-- `bf.zeros` (R66). -/
def execBfZeros (s : State) : Host.Outcome State Fault Refusal :=
  answer (slotUse .bfZeros) (fun q => checked q.ca (.ret (.list (positions q.ca 0)))) s

/-- `invtop` (R67). -/
def execInvtop (s : State) : Host.Outcome State Fault Refusal := answer (slotUse .invtop) invtopRule s

end Sys2Proof.Machine
end

