-- ==== Sys2Proof/Machine/Concatenator.lean ====
section
/-! DEFINITION. The bit concatenator (46_concatenator.md): `bf.cat` R74. -/

namespace Sys2Proof.Machine

/-- `bf.cat A, B`: `A` becomes the more significant part (R74, R29). -/
def bfCatRule (q : Request) : Response :=
  checked q.ca <| checked q.cb <|
    .ret (.cont ⟨concat q.ca.data q.cb.data q.cb.width.toNat, q.ca.width + q.cb.width⟩)

/-- `bf.cat` (R74). -/
def execBfCat (s : State) : Host.Outcome State Fault Refusal := answer (slotUse .bfCat) bfCatRule s

end Sys2Proof.Machine
end

