-- ==== Sys2Proof/Machine/Clipper.lean ====
section
/-! DEFINITION. The clipper and wrapper (40_clipper.md): `clip` R50 and `wrap` R51. -/

namespace Sys2Proof.Machine

/-- `clip(v, w)`, asymmetric or symmetric (R50). Width `<= 0` gives 0 (90_conflicts.md C2). -/
def clipValue (sym : Bool) (v w : Int) : Int :=
  if w ≤ 0 then 0
  else
    let half := pow2 (w - 1).toNat
    let high := half - 1
    let low := if sym then -half + 1 else -half
    if v > high then high else if v < low then low else v

/-- `wrap(v, w)`: two's-complement reduction to `w` bits (R51). Width `<= 0` gives 0 (90_conflicts.md C2). -/
def wrapValue (v w : Int) : Int :=
  if w ≤ 0 then 0 else sext w.toNat (v % pow2 w.toNat)

/-- `clip` / `clip.sym` (R50). -/
def execClip (sym : Bool) (s : State) : Host.Outcome State Fault Refusal :=
  answer (slotUse (.clip sym)) (fun q => .ret (.int (clipValue sym q.a q.b))) s

/-- `wrap` (R51). -/
def execWrap (s : State) : Host.Outcome State Fault Refusal :=
  answer (slotUse .wrap) (fun q => .ret (.int (wrapValue q.a q.b))) s

end Sys2Proof.Machine
end

