-- ==== Sys2Proof/Machine/Rounder.lean ====
section
/-! DEFINITION. The rounder (41_rounder.md): the rounding function R53, `round` R54 and `uround` R55. -/

namespace Sys2Proof.Machine

/-- The policy a direction field names; `0b11` names none (R40). -/
def policy : Dir → Option TieBreak
  | .halfUp => some .halfUp
  | .halfAway => some .halfAway
  | .halfEven => some .halfEven
  | .unsupported => none

/-- `rnd(v, r, dir)` for `r >= 1` (R53). -/
def rnd (v : Int) (r : Nat) (dir : TieBreak) : Int :=
  let h := pow2 (r - 1)
  let m := pow2 r
  match dir with
  | .halfUp => (v + h) / m
  | .halfAway => if v ≥ 0 then (v + h) / m else (v + h - 1) / m
  | .halfEven =>
    let q := (v + h) / m
    if v % m = h ∧ q % 2 = 1 then q - 1 else q

/-- `round` with the direction already named (R54): no change for `r <= 0`, and only an upper clamp, which needs
`CLP = 1` and `ow >= 1`. -/
def roundValue (dir : TieBreak) (clp : Bool) (v r ow : Int) : Int :=
  if r ≤ 0 then v
  else
    let q := rnd v r.toNat dir
    if clp ∧ ow ≥ 1 then min q (pow2 (ow - 1).toNat - 1) else q

/-- `uround` of a non-negative value with the direction already named (R55): as `round`, with the clamp at `ow + 1` bits,
tested on the caller's `ow`. -/
def uroundValue (dir : TieBreak) (clp : Bool) (v r ow : Int) : Int :=
  if r ≤ 0 then v
  else
    let q := rnd v r.toNat dir
    if clp ∧ ow ≥ 1 then min q (pow2 ow.toNat - 1) else q

/-- The rule of `round` (R54): the direction is checked first, even when `r <= 0`. -/
def roundRule (dir : Dir) (clp : Bool) (q : Request) : Response :=
  match policy dir with
  | none => .raise .configurationError
  | some d => .ret (.int (roundValue d clp q.a q.b q.c))

/-- The rule of `uround` (R55): the direction first, then the sign of the value. -/
def uroundRule (dir : Dir) (clp : Bool) (q : Request) : Response :=
  match policy dir with
  | none => .raise .configurationError
  | some d =>
    if q.a < 0 then .raise .domainError
    else .ret (.int (uroundValue d clp q.a q.b q.c))

/-- `round.<dir>` / `round.<dir>.clip` (R54). -/
def execRound (dir : Dir) (clp : Bool) (s : State) : Host.Outcome State Fault Refusal :=
  answer (slotUse (.round dir clp)) (roundRule dir clp) s

/-- `uround.<dir>` / `uround.<dir>.clip` (R55). -/
def execUround (dir : Dir) (clp : Bool) (s : State) : Host.Outcome State Fault Refusal :=
  answer (slotUse (.uround dir clp)) (uroundRule dir clp) s

end Sys2Proof.Machine
end

