-- ==== Sys2Proof/Machine/Truncator.lean ====
section
/-! DEFINITION. The bit truncator (42_truncator.md): `trunc` R56. -/

namespace Sys2Proof.Machine

/-- `truncate(v, r)`: the arithmetic shift, or with `SYM = 1` the shift of the magnitude with the sign restored (R56). -/
def truncValue (sym : Bool) (v r : Int) : Int :=
  if r ≤ 0 then v
  else if sym ∧ v < 0 then -(shr (-v) r.toNat)
  else shr v r.toNat

/-- `trunc` / `trunc.sym` (R56). -/
def execTrunc (sym : Bool) (s : State) : Host.Outcome State Fault Refusal :=
  answer (slotUse (.trunc sym)) (fun q => .ret (.int (truncValue sym q.a q.b))) s

end Sys2Proof.Machine
end

