-- ==== Sys2Proof/Machine/Requantizer.lean ====
section
/-! DEFINITION. The requantizer (43_requantizer.md): `requant` R57. -/

namespace Sys2Proof.Machine

/-- The pipeline of R57, with the direction already named and `g >= 0`: wrap to the input width, remove low bits, reduce
to the output width, then the gain shift and a last wrap. -/
def requantValue (dir : TieBreak) (rlsb cmsb : Bool) (v iw ow lw g : Int) : Int :=
  let v1 := wrapValue v iw
  let v2 := if rlsb then roundValue dir false v1 lw 0 else truncValue false v1 lw
  let v3 := if cmsb then clipValue false v2 ow else wrapValue v2 ow
  wrapValue (shl v3 g.toNat) ow

/-- The rule of `requant` (R57): the direction is checked first, even when `RLSB = 0`, then the gain. -/
def requantRule (dir : Dir) (rlsb cmsb : Bool) (q : Request) : Response :=
  match policy dir with
  | none => .raise .configurationError
  | some d =>
    if q.e < 0 then .raise .rangeError
    else .ret (.int (requantValue d rlsb cmsb q.a q.b q.c q.d q.e))

/-- `requant.<dir>[.rlsb][.cmsb]` (R57). -/
def execRequant (dir : Dir) (rlsb : Bool) (cmsb : Bool) (s : State) : Host.Outcome State Fault Refusal :=
  answer (slotUse (.requant dir rlsb cmsb)) (requantRule dir rlsb cmsb) s

end Sys2Proof.Machine
end

