-- ==== Sys2Proof/Machine/SymbolView.lean ====
section
/-! DEFINITION. Symbol views (45_symbol_views.md): R68 to R73. -/

namespace Sys2Proof.Machine

/-- The fewest whole symbols of `sw` bits that hold `v`, at least one: `max(1, ceil(bitlen(v) / sw))` (R69). -/
def fewestSymbols (sw : Nat) (v : Int) : Nat := max 1 ((bitlen v + sw - 1) / sw)

/-- The rule of `sv.new` (R69). -/
def svNewRule (w : SymWidth) (womit : Bool) (q : Request) : Response :=
  let sw := symbolBits w
  if q.a < 0 then .raise .domainError
  else if womit then .ret (.cont ⟨q.a, (sw : Int) * fewestSymbols sw q.a⟩)
  else if q.b ≤ 0 then .raise .rangeError
  else if (bitlen q.a : Int) > sw * q.b then .raise .rangeError
  else .ret (.cont ⟨q.a, sw * q.b⟩)

/-- The rule of `sv.get` (R70). -/
def svGetRule (w : SymWidth) (q : Request) : Response :=
  let sw := symbolBits w
  checked q.ca <|
    if q.a < 0 ∨ (q.a + 1) * sw > q.ca.width then .raise .rangeError
    else .ret (.int (slice q.ca.data (symbolTop sw q.a) (symbolBottom sw q.a)))

/-- The rule of `sv.getr` (R71). -/
def svGetrRule (w : SymWidth) (q : Request) : Response :=
  let sw := symbolBits w
  checked q.ca <|
    if q.a < q.b then .raise .rangeError
    else if q.b < 0 ∨ (q.a + 1) * sw > q.ca.width then .raise .rangeError
    else .ret (.int (slice q.ca.data (symbolTop sw q.a) (symbolBottom sw q.b)))

/-- The rule of `sv.set` (R72). -/
def svSetRule (w : SymWidth) (q : Request) : Response :=
  let sw := symbolBits w
  checked q.ca <|
    if q.a < 0 ∨ (q.a + 1) * sw > q.ca.width then .raise .rangeError
    else writeRange q.ca (symbolTop sw q.a) (symbolBottom sw q.a) q.b

/-- The rule of `sv.setr` (R73). -/
def svSetrRule (w : SymWidth) (q : Request) : Response :=
  let sw := symbolBits w
  checked q.ca <|
    if q.a < q.b then .raise .rangeError
    else if q.b < 0 ∨ (q.a + 1) * sw > q.ca.width then .raise .rangeError
    else writeRange q.ca (symbolTop sw q.a) (symbolBottom sw q.b) q.c

/-- `sv.new.<sz>` (R69). -/
def execSvNew (sw : SymWidth) (womit : Bool) (s : State) : Host.Outcome State Fault Refusal :=
  answer (slotUse (.svNew sw womit)) (svNewRule sw womit) s

/-- `sv.get.<sz>` (R70). -/
def execSvGet (sw : SymWidth) (s : State) : Host.Outcome State Fault Refusal :=
  answer (slotUse (.svGet sw)) (svGetRule sw) s

/-- `sv.getr.<sz>` (R71). -/
def execSvGetr (sw : SymWidth) (s : State) : Host.Outcome State Fault Refusal :=
  answer (slotUse (.svGetr sw)) (svGetrRule sw) s

/-- `sv.set.<sz>` (R72). -/
def execSvSet (sw : SymWidth) (s : State) : Host.Outcome State Fault Refusal :=
  answer (slotUse (.svSet sw)) (svSetRule sw) s

/-- `sv.setr.<sz>` (R73). -/
def execSvSetr (sw : SymWidth) (s : State) : Host.Outcome State Fault Refusal :=
  answer (slotUse (.svSetr sw)) (svSetrRule sw) s

end Sys2Proof.Machine
end

