-- ==== Sys2Proof/Machine/Dispatch.lean ====
section
/-! DEFINITION. One arm per instruction (30_encoding.md R42), each one call of its meaning. -/

namespace Sys2Proof.Machine

/-- What the core does with the request in flight when its command word is the instruction `i`. -/
def exec (i : Instr) (s : State) : Host.Outcome State Fault Refusal :=
  match i with
  | .clip sym => Sys2Proof.Machine.execClip sym s
  | .wrap => Sys2Proof.Machine.execWrap s
  | .round dir clp => Sys2Proof.Machine.execRound dir clp s
  | .uround dir clp => Sys2Proof.Machine.execUround dir clp s
  | .trunc sym => Sys2Proof.Machine.execTrunc sym s
  | .requant dir rlsb cmsb => Sys2Proof.Machine.execRequant dir rlsb cmsb s
  | .bfNew womit => Sys2Proof.Machine.execBfNew womit s
  | .bfGetbit => Sys2Proof.Machine.execBfGetbit s
  | .bfGet => Sys2Proof.Machine.execBfGet s
  | .bfSetbit => Sys2Proof.Machine.execBfSetbit s
  | .bfSet => Sys2Proof.Machine.execBfSet s
  | .bfRev => Sys2Proof.Machine.execBfRev s
  | .bfOnes => Sys2Proof.Machine.execBfOnes s
  | .bfZeros => Sys2Proof.Machine.execBfZeros s
  | .invtop => Sys2Proof.Machine.execInvtop s
  | .svNew sw womit => Sys2Proof.Machine.execSvNew sw womit s
  | .svGet sw => Sys2Proof.Machine.execSvGet sw s
  | .svGetr sw => Sys2Proof.Machine.execSvGetr sw s
  | .svSet sw => Sys2Proof.Machine.execSvSet sw s
  | .svSetr sw => Sys2Proof.Machine.execSvSetr sw s
  | .bfCat => Sys2Proof.Machine.execBfCat s

end Sys2Proof.Machine
end

