-- ==== Sys2Proof/Decode.lean ====
section
/-! DEFINITION. The command word format CMD32 and the opcode map (30_encoding.md R39 to R46): decode, total on all 2^32
words, and after it the encoder, written from the same tables of the spec. -/

namespace Sys2Proof

/-! ## Fields of the command word (R39) -/

/-- Field `SYM`, bit 8. -/
def Word.symField (w : Word) : Bool := w.getLsbD 8
/-- Field `DIR`, bits [10:9]. -/
def Word.dirField (w : Word) : BitVec 2 := w.extractLsb' 9 2
/-- Field `CLP`, bit 11. -/
def Word.clpField (w : Word) : Bool := w.getLsbD 11
/-- Field `RLSB`, bit 12. -/
def Word.rlsbField (w : Word) : Bool := w.getLsbD 12
/-- Field `CMSB`, bit 13. -/
def Word.cmsbField (w : Word) : Bool := w.getLsbD 13
/-- Field `WOMIT`, bit 14. -/
def Word.womitField (w : Word) : Bool := w.getLsbD 14
/-- Field `SW`, bits [17:16]. -/
def Word.swField (w : Word) : BitVec 2 := w.extractLsb' 16 2

/-- The encoding of `DIR` (R40): 00, 01, 10 are the policies, 11 names none. -/
def Dir.ofBits (b : BitVec 2) : Dir :=
  if b = 0b00#2 then .halfUp
  else if b = 0b01#2 then .halfAway
  else if b = 0b10#2 then .halfEven
  else .unsupported

/-- The encoding of `SW` (R41): 00, 01, 10, 11 for 8, 16, 32 and 64 bits. -/
def SymWidth.ofBits (b : BitVec 2) : SymWidth :=
  if b = 0b00#2 then .byte
  else if b = 0b01#2 then .halfword
  else if b = 0b10#2 then .word
  else .doubleword

/-! ## The opcode map (R42) -/

/-- A row of the opcode map: the bits that must equal `pattern`, and the operation the row names, read from the word's
fields. -/
structure OpcodeRow where
  mask    : Word
  pattern : Word
  build   : Word → Instr

/-- A word fits a row when `(cmd AND mask) = match` (R44). -/
def OpcodeRow.fits (r : OpcodeRow) (w : Word) : Bool := w &&& r.mask == r.pattern

/-- The quantization rows of R42. -/
def quantRows : List OpcodeRow :=
  [ ⟨0xFFFFFEFF#32, 0x00000001#32, fun w => .clip (Word.symField w)⟩,
    ⟨0xFFFFFFFF#32, 0x00000002#32, fun _ => .wrap⟩,
    ⟨0xFFFFF1FF#32, 0x00000003#32, fun w => .round (Dir.ofBits (Word.dirField w)) (Word.clpField w)⟩,
    ⟨0xFFFFF1FF#32, 0x00000004#32, fun w => .uround (Dir.ofBits (Word.dirField w)) (Word.clpField w)⟩,
    ⟨0xFFFFFEFF#32, 0x00000005#32, fun w => .trunc (Word.symField w)⟩,
    ⟨0xFFFFC9FF#32, 0x00000006#32,
      fun w => .requant (Dir.ofBits (Word.dirField w)) (Word.rlsbField w) (Word.cmsbField w)⟩ ]

/-- The bit-field rows of R42. -/
def bitfieldRows : List OpcodeRow :=
  [ ⟨0xFFFFBFFF#32, 0x00000010#32, fun w => .bfNew (Word.womitField w)⟩,
    ⟨0xFFFFFFFF#32, 0x00000011#32, fun _ => .bfGetbit⟩,
    ⟨0xFFFFFFFF#32, 0x00000012#32, fun _ => .bfGet⟩,
    ⟨0xFFFFFFFF#32, 0x00000013#32, fun _ => .bfSetbit⟩,
    ⟨0xFFFFFFFF#32, 0x00000014#32, fun _ => .bfSet⟩,
    ⟨0xFFFFFFFF#32, 0x00000015#32, fun _ => .bfRev⟩,
    ⟨0xFFFFFFFF#32, 0x00000016#32, fun _ => .bfOnes⟩,
    ⟨0xFFFFFFFF#32, 0x00000017#32, fun _ => .bfZeros⟩,
    ⟨0xFFFFFFFF#32, 0x00000018#32, fun _ => .invtop⟩ ]

/-- The symbol-view rows of R42, and the concatenator's. -/
def symbolRows : List OpcodeRow :=
  [ ⟨0xFFFCBFFF#32, 0x00000020#32, fun w => .svNew (SymWidth.ofBits (Word.swField w)) (Word.womitField w)⟩,
    ⟨0xFFFCFFFF#32, 0x00000021#32, fun w => .svGet (SymWidth.ofBits (Word.swField w))⟩,
    ⟨0xFFFCFFFF#32, 0x00000022#32, fun w => .svGetr (SymWidth.ofBits (Word.swField w))⟩,
    ⟨0xFFFCFFFF#32, 0x00000023#32, fun w => .svSet (SymWidth.ofBits (Word.swField w))⟩,
    ⟨0xFFFCFFFF#32, 0x00000024#32, fun w => .svSetr (SymWidth.ofBits (Word.swField w))⟩,
    ⟨0xFFFFFFFF#32, 0x00000030#32, fun _ => .bfCat⟩ ]

/-- The opcode map, in the order of R42. -/
def opcodeTable : List OpcodeRow := quantRows ++ bitfieldRows ++ symbolRows

/-- Decode (R45): the first row that fits says the operation; `none` where no row fits, which is IllegalCommand (R44,
R78). Total on all 2^32 words. -/
def decode (w : Word) : Option Instr := (opcodeTable.find? (·.fits w)).map (·.build w)

/-! ## The encoder (R39 to R42) -/

/-- The bits of `DIR` for each direction (R40). -/
def Dir.bits : Dir → BitVec 2
  | .halfUp => 0b00#2
  | .halfAway => 0b01#2
  | .halfEven => 0b10#2
  | .unsupported => 0b11#2

/-- The bits of `SW` for each symbol size (R41). -/
def SymWidth.swBits : SymWidth → BitVec 2
  | .byte => 0b00#2
  | .halfword => 0b01#2
  | .word => 0b10#2
  | .doubleword => 0b11#2

/-- A one-bit field placed at bit `n`. -/
def flagAt (n : Nat) (b : Bool) : Word := (BitVec.ofBool b).setWidth 32 <<< n

/-- A two-bit field placed with its low bit at bit `n`. -/
def pairAt (n : Nat) (b : BitVec 2) : Word := b.setWidth 32 <<< n

/-- The opcode number of each operation (R42). -/
def Instr.opcode : Instr → Word
  | .clip _ => 0x01#32
  | .wrap => 0x02#32
  | .round _ _ => 0x03#32
  | .uround _ _ => 0x04#32
  | .trunc _ => 0x05#32
  | .requant _ _ _ => 0x06#32
  | .bfNew _ => 0x10#32
  | .bfGetbit => 0x11#32
  | .bfGet => 0x12#32
  | .bfSetbit => 0x13#32
  | .bfSet => 0x14#32
  | .bfRev => 0x15#32
  | .bfOnes => 0x16#32
  | .bfZeros => 0x17#32
  | .invtop => 0x18#32
  | .svNew _ _ => 0x20#32
  | .svGet _ => 0x21#32
  | .svGetr _ => 0x22#32
  | .svSet _ => 0x23#32
  | .svSetr _ => 0x24#32
  | .bfCat => 0x30#32

/-- The mode fields of each operation, at their places in the word (R39); every reserved bit is 0. -/
def Instr.modeBits : Instr → Word
  | .clip sym | .trunc sym => flagAt 8 sym
  | .round dir clp | .uround dir clp => pairAt 9 dir.bits ||| flagAt 11 clp
  | .requant dir rlsb cmsb => pairAt 9 dir.bits ||| flagAt 12 rlsb ||| flagAt 13 cmsb
  | .bfNew womit => flagAt 14 womit
  | .svNew sw womit => pairAt 16 sw.swBits ||| flagAt 14 womit
  | .svGet sw | .svGetr sw | .svSet sw | .svSetr sw => pairAt 16 sw.swBits
  | .wrap | .bfGetbit | .bfGet | .bfSetbit | .bfSet | .bfRev | .bfOnes | .bfZeros | .invtop | .bfCat => 0#32

/-- The command word of an instruction. -/
def encode (i : Instr) : Word := i.opcode ||| i.modeBits

/-- The instruction the decoder reads from a row's `nbits` low bits of `w`, bit 0 the least significant bit of the
command word; the word's bits above `nbits` are 0, and a number with a bit above bit 31 is no command word (log
entry 17). -/
def decodeTableWord (nbits w : Nat) : Option Instr :=
  if w % 2 ^ nbits < 2 ^ 32 then decode (BitVec.ofNat 32 (w % 2 ^ nbits)) else none

end Sys2Proof
end

