-- ==== Sys2Proof/Machine/Requester.lean ====
section
/-! DEFINITION. The requester's side of the interface (30_encoding.md R49; 10_state.md R21; 20_memory.md R35, R38;
70_reset_and_hazards.md R89, R90, R92): issuing a line's request, receiving its response, and reset. -/

namespace Sys2Proof.Machine

/-! ## Issuing a request -/

/-- Read an operand of a signed slot: a literal, or a variable, which must hold an integer (R49). -/
def readInt (vars : List (VarName × Payload)) : IntOperand → Except Fault Int
  | .lit n => .ok n
  | .var x =>
    match lookup x vars with
    | some (.int v) => .ok v
    | some (.cont _) | some (.list _) => .error (.wrongKind x)
    | none => .error (.unsetVariable x)

/-- Read an operand of a container slot: a variable, which must hold a container (R49). A slot the line does not name
holds 0 (R47; log entry 11). -/
def readCont (vars : List (VarName × Payload)) : ContOperand → Except Fault Container
  | .unnamed => .ok ⟨0, 0⟩
  | .var x =>
    match lookup x vars with
    | some (.cont c) => .ok c
    | some (.int _) | some (.list _) => .error (.wrongKind x)
    | none => .error (.unsetVariable x)

/-- The request of a line: "read each operand variable; a variable with no value, or of the wrong kind ..., is a program
fault" (R49). Operands are read in slot order (log entry 14). -/
def readLine (vars : List (VarName × Payload)) (l : Line) : Except Fault Request := do
  let ca ← readCont vars l.ca
  let cb ← readCont vars l.cb
  let a ← readInt vars l.a
  let b ← readInt vars l.b
  let c ← readInt vars l.c
  let d ← readInt vars l.d
  let e ← readInt vars l.e
  return ⟨l.cmd, ca, cb, a, b, c, d, e⟩

/-- The variable an operand of a signed slot names, if any. -/
def IntOperand.names : IntOperand → List VarName
  | .lit _ => []
  | .var x => [x]

/-- The variable an operand of a container slot names, if any. -/
def ContOperand.names : ContOperand → List VarName
  | .unnamed => []
  | .var x => [x]

/-- The variables a line reads or writes. -/
def Line.names (l : Line) : List VarName :=
  l.ca.names ++ l.cb.names ++ l.a.names ++ l.b.names ++ l.c.names ++ l.d.names ++ l.e.names ++ l.dst.toList

/-- Issue a line's request. A line that uses a variable which a second requester uses as well is refused (R38, R94).
DESIGN CHOICE: the refusal comes before the operands are read, so a line that also names an unset or wrong-kind variable is
refused and is no program fault; of several shared variables the first is reported, in slot order with the destination
last. The spec orders neither (log entry 19). -/
def issue (l : Line) (s : State) : Host.Outcome State Fault Refusal :=
  match l.names.find? (fun x => s.shared.contains x) with
  | some x => .refused (.sharedVariable x)
  | none =>
    match readLine s.vars l with
    | .ok q => .next { s with inFlight := some q }
    | .error f => .fault f

/-- What the requester does with no request in flight: it issues the line numbered `pos`; after the last line the run has
ended and nothing happens (R49, R96; log entry 8). -/
def issueNext (s : State) : Host.Outcome State Fault Refusal :=
  match s.program[s.pos]? with
  | some l => issue l s
  | none => .next s

/-! ## Receiving a response -/

/-- Where the payload of the request in flight goes, if anywhere: to the `$dst` of the line numbered `pos`, whose request it
is in a program's run (R49). DESIGN CHOICE: where a request was placed from outside while that line had not been issued, its
payload goes to the same `$dst` (log entry 16). -/
def State.destination (s : State) : Option VarName := (s.program[s.pos]?).bind Line.dst

/-- The variables after a response: "if status == OK and the line has $dst: $dst <- payload"; "a non-OK status leaves $dst
unchanged" (R49, R79, R92). -/
def writeBack (dst : Option VarName) (r : Response) (vars : List (VarName × Payload)) : List (VarName × Payload) :=
  match r.status, r.payload, dst with
  | .ok, some p, some x => store x p vars
  | _, _, _ => vars

/-- The requester receives the response just delivered: `st[k] <- status`, the payload is written back, and the next line
follows (R49). DESIGN CHOICE: so is a response to a request that no line issued; it takes the place of the line numbered
`pos`, which is then not issued, or counts as a line past the program's end; its payload is stored in that line's `$dst` without a
refusal even where a second requester uses that variable, since only issuing a line is refused (log entry 16). -/
def receive (s : State) : State :=
  match s.response with
  | none => s
  | some r =>
    { s with
      statuses := s.statuses ++ [r.status]
      vars := writeBack s.destination r s.vars
      pos := s.pos + 1 }

/-- A word that decodes to no operation: no slot is read, and the response is IllegalCommand (R78). -/
def answerIllegal (s : State) : State := s.raiseError .illegalCommand

/-- What follows an instruction's own effect: the requester receives the response (R49). A fault or a refusal stands. -/
def thenReceive : Host.Outcome State Fault Refusal → Host.Outcome State Fault Refusal
  | .next t => .next (receive t)
  | .fault f => .fault f
  | .refused r => .refused r

/-! ## Reset and what is given from outside -/

/-- Reset takes effect (R89, R90): no request in flight, so one that was gets no response; no response delivered; no
variable holds a value. The instance's ports, the program and the shared variables are the outside's and stay (log
entry 9). -/
def takeReset (s : State) : State :=
  { State.reset with ports := s.ports, program := s.program, shared := s.shared }

/-- A program is given to the requester, to run from its line 0 (R49; log entry 13). -/
def State.withProgram (s : State) (lines : List Line) : State := { s with program := lines, pos := 0, statuses := [] }

/-- The request that carries command word `w`: the slots of the request in flight, if there is one, else slots of 0 (log
entry 13). -/
def requestWithWord (s : State) (w : Word) : Request :=
  match s.inFlight with
  | some q => { q with cmd := w }
  | none => ⟨w, ⟨0, 0⟩, ⟨0, 0⟩, 0, 0, 0, 0, 0⟩

/-- Put a command word where the next step fetches it: in the request in flight (R37: "Each command word is delivered in
its request"), with reset not asserted. -/
def placeWord (s : State) (nbits w : Nat) : State :=
  { s with
    inFlight := some (requestWithWord s (BitVec.ofNat 32 (w % 2 ^ nbits)))
    resetAsserted := false }

end Sys2Proof.Machine
end

