-- ==== Sys2Proof/Machine/Step.lean ====
section
/-! DEFINITION. One step of the machine: reset takes effect, or the core answers the request in flight and the requester
receives the answer, or the requester issues its next line (20_memory.md R35; 30_encoding.md R45, R49;
70_reset_and_hazards.md R89; log entry 5). -/

namespace Sys2Proof.Machine

/-- The core answers a request with command word `w`: its instruction runs, or the word is IllegalCommand (R44, R45); then
the requester receives the response. -/
def answerWord (w : Word) (s : State) : Host.Outcome State Fault Refusal :=
  match decode w with
  | some i => thenReceive (exec i s)
  | none => .next (receive (answerIllegal s))

/-- One step. -/
def step (s : State) : Host.Outcome State Fault Refusal :=
  if s.resetAsserted then .next (takeReset s)
  else
    match s.inFlight with
    | some q => answerWord q.cmd s
    | none => issueNext s

/-- The state with the command word `w` where `step` fetches its next instruction: in the request in flight (R37; log
entry 13). -/
def State.withFetchWord (s : State) (nbits w : Nat) : State := placeWord s nbits w

end Sys2Proof.Machine
end

