-- ==== Sys2Proof/Machine/Assembler.lean ====
section
/-! DEFINITION. The assembler forms (30_encoding.md R47) and the pseudo-instructions (R48), as typed terms, and what they
assemble to: the command word, with an operand for each slot the form names and 0 in every other. -/

namespace Sys2Proof.Machine

/-- The direction of a `<dir>` suffix (R47): `up`, `away` or `even`. The assembler cannot spell `0b11`. -/
def dirOf : TieBreak → Dir
  | .halfUp => .halfUp
  | .halfAway => .halfAway
  | .halfEven => .halfEven

/-- The forms of R47. A container operand is a variable, since a literal is an integer (R49). -/
inductive Asm where
  | clip (sym : Bool) (v w : IntOperand)
  | wrap (v w : IntOperand)
  | round (dir : TieBreak) (v r : IntOperand)
  | roundClip (dir : TieBreak) (v r ow : IntOperand)
  | uround (dir : TieBreak) (v r : IntOperand)
  | uroundClip (dir : TieBreak) (v r ow : IntOperand)
  | trunc (sym : Bool) (v r : IntOperand)
  | requant (dir : TieBreak) (rlsb cmsb : Bool) (v iw ow lw g : IntOperand)
  | bfNew (v w : IntOperand)
  | bfNewMin (v : IntOperand)
  | bfGetbit (c : VarName) (i : IntOperand)
  | bfGet (c : VarName) (h l : IntOperand)
  | bfSetbit (c : VarName) (i b : IntOperand)
  | bfSet (c : VarName) (h l x : IntOperand)
  | bfRev (c : VarName)
  | bfOnes (c : VarName)
  | bfZeros (c : VarName)
  | invtop (v w : IntOperand)
  | svNew (sz : SymWidth) (v n : IntOperand)
  | svNewMin (sz : SymWidth) (v : IntOperand)
  | svGet (sz : SymWidth) (c : VarName) (s : IntOperand)
  | svGetr (sz : SymWidth) (c : VarName) (sh sl : IntOperand)
  | svSet (sz : SymWidth) (c : VarName) (s x : IntOperand)
  | svSetr (sz : SymWidth) (c : VarName) (sh sl x : IntOperand)
  | bfCat (c d : VarName)
deriving DecidableEq, Repr

/-- The fields a form sets (R47), as the instruction it names. -/
def Asm.instr : Asm → Instr
  | .clip sym _ _ => .clip sym
  | .wrap _ _ => .wrap
  | .round dir _ _ => .round (dirOf dir) false
  | .roundClip dir _ _ _ => .round (dirOf dir) true
  | .uround dir _ _ => .uround (dirOf dir) false
  | .uroundClip dir _ _ _ => .uround (dirOf dir) true
  | .trunc sym _ _ => .trunc sym
  | .requant dir rlsb cmsb _ _ _ _ _ => .requant (dirOf dir) rlsb cmsb
  | .bfNew _ _ => .bfNew false
  | .bfNewMin _ => .bfNew true
  | .bfGetbit _ _ => .bfGetbit
  | .bfGet _ _ _ => .bfGet
  | .bfSetbit _ _ _ => .bfSetbit
  | .bfSet _ _ _ _ => .bfSet
  | .bfRev _ => .bfRev
  | .bfOnes _ => .bfOnes
  | .bfZeros _ => .bfZeros
  | .invtop _ _ => .invtop
  | .svNew sz _ _ => .svNew sz false
  | .svNewMin sz _ => .svNew sz true
  | .svGet sz _ _ => .svGet sz
  | .svGetr sz _ _ _ => .svGetr sz
  | .svSet sz _ _ _ => .svSet sz
  | .svSetr sz _ _ _ _ => .svSetr sz
  | .bfCat _ _ => .bfCat

/-- The container operands of a form, for slots `ca`, `cb` (R43, R47). -/
def Asm.containers : Asm → List VarName
  | .bfGetbit c _ | .bfGet c _ _ | .bfSetbit c _ _ | .bfSet c _ _ _ | .bfRev c | .bfOnes c | .bfZeros c
  | .svGet _ c _ | .svGetr _ c _ _ | .svSet _ c _ _ | .svSetr _ c _ _ _ => [c]
  | .bfCat c d => [c, d]
  | .clip _ _ _ | .wrap _ _ | .round _ _ _ | .roundClip _ _ _ _ | .uround _ _ _ | .uroundClip _ _ _ _ | .trunc _ _ _
  | .requant _ _ _ _ _ _ _ _ | .bfNew _ _ | .bfNewMin _ | .invtop _ _ | .svNew _ _ _ | .svNewMin _ _ => []

/-- The integer operands of a form, for slots `a` to `e` (R43, R47). -/
def Asm.integers : Asm → List IntOperand
  | .clip _ v w | .wrap v w | .bfNew v w | .invtop v w | .svNew _ v w => [v, w]
  | .round _ v r | .uround _ v r | .trunc _ v r => [v, r]
  | .roundClip _ v r ow | .uroundClip _ v r ow => [v, r, ow]
  | .requant _ _ _ v iw ow lw g => [v, iw, ow, lw, g]
  | .bfNewMin v | .svNewMin _ v => [v]
  | .bfGetbit _ i | .svGet _ _ i => [i]
  | .bfGet _ h l | .svGetr _ _ h l => [h, l]
  | .bfSetbit _ i x | .svSet _ _ i x => [i, x]
  | .bfSet _ h l x | .svSetr _ _ h l x => [h, l, x]
  | .bfRev _ | .bfOnes _ | .bfZeros _ | .bfCat _ _ => []

/-- The line of a command word with operands "in slot order, container slots first and then `a`, `b`, ..." (R49); "The
assembler writes 0 into any slot a form does not name" (R47). Also the line of `raw <word>, <operands>` (R49). DESIGN
CHOICE, for raw lines: the operands come as two lists, one for the container slots and one for the signed slots, which
settles the kind each variable must have also where the word fits no row; operands beyond the two container slots or the
five signed slots are dropped and never read; slots left over hold 0 (log entries 11 and 20). -/
def lineOf (dst : Option VarName) (w : Word) (conts : List VarName) (ints : List IntOperand) : Line where
  dst := dst
  cmd := w
  ca := (conts[0]?).elim .unnamed .var
  cb := (conts[1]?).elim .unnamed .var
  a := (ints[0]?).getD (.lit 0)
  b := (ints[1]?).getD (.lit 0)
  c := (ints[2]?).getD (.lit 0)
  d := (ints[3]?).getD (.lit 0)
  e := (ints[4]?).getD (.lit 0)

/-- The line `$dst = <form>` (R47, R49). -/
def assemble (dst : Option VarName) (f : Asm) : Line := lineOf dst (encode f.instr) f.containers f.integers

/-- The pseudo-instructions of R48. -/
inductive Pseudo where
  | uround (v r : IntOperand)
  | uroundClip (v r ow : IntOperand)
  | requant (v iw ow : IntOperand)
  | requantNoGain (dir : TieBreak) (rlsb cmsb : Bool) (v iw ow lw : IntOperand)
  | bfSetall (c : VarName) (h l : IntOperand)
  /-- `byte.new`, `halfword.new`, `word.new`, `dword.new`, with a count. -/
  | sizedNew (sz : SymWidth) (v n : IntOperand)
  /-- The same with the count omitted. -/
  | sizedNewMin (sz : SymWidth) (v : IntOperand)
  | sizedGet (sz : SymWidth) (c : VarName) (s : IntOperand)
  | sizedGetr (sz : SymWidth) (c : VarName) (sh sl : IntOperand)
  | sizedSet (sz : SymWidth) (c : VarName) (s x : IntOperand)
  | sizedSetr (sz : SymWidth) (c : VarName) (sh sl x : IntOperand)
deriving DecidableEq, Repr

/-- The expansions of R48. -/
def Pseudo.expand : Pseudo → Asm
  | .uround v r => .uround .halfUp v r
  | .uroundClip v r ow => .uroundClip .halfUp v r ow
  | .requant v iw ow => .requant .halfUp false false v iw ow (.lit 0) (.lit 0)
  | .requantNoGain dir rlsb cmsb v iw ow lw => .requant dir rlsb cmsb v iw ow lw (.lit 0)
  | .bfSetall c h l => .bfSet c h l (.lit (-1))
  | .sizedNew sz v n => .svNew sz v n
  | .sizedNewMin sz v => .svNewMin sz v
  | .sizedGet sz c s => .svGet sz c s
  | .sizedGetr sz c sh sl => .svGetr sz c sh sl
  | .sizedSet sz c s x => .svSet sz c s x
  | .sizedSetr sz c sh sl x => .svSetr sz c sh sl x

end Sys2Proof.Machine
end

