-- ==== Sys2Proof/Machine/Flags.lean ====
section
/-! DEFINITION. The core has no flags and no condition codes: the only indication of a request is its response's status
(10_state.md R19), a 3-bit code (60_exceptions.md R76). -/

namespace Sys2Proof.Machine

/-- The 3-bit code of a status (R76). Codes 4, 5 and 6 are reserved and never produced. -/
def statusCode : Status → BitVec 3
  | .ok => 0#3
  | .configurationError => 1#3
  | .domainError => 2#3
  | .rangeError => 3#3
  | .illegalCommand => 7#3

end Sys2Proof.Machine
end

