-- ==== Sys2Proof/WellFormed.lean ====
section
/-! DEFINITION. The checks that say which data is meaningful: instructions an assembler form names, containers (00_scope.md
R13), payloads and responses (10_state.md R17, 44_bitfield.md R65), and instance parameters (R8).

Every term of `Instr` has an encoding, because its fields are closed sets whose every member is a value of a command
field; the one term-level check is `Instr.namesOperation`, which refuses the words that name no operation (R44). -/

namespace Sys2Proof

/-- Whether a direction field names a policy (R40). -/
def Dir.namesPolicy : Dir → Bool
  | .unsupported => false
  | .halfUp | .halfAway | .halfEven => true

/-- Whether the instruction names an operation: "The only legal word that names no operation is `DIR = 0b11` in `round`,
`uround` or `requant`" (R44). Exactly these the assembler forms of R47 can spell. -/
def Instr.namesOperation : Instr → Bool
  | .round dir _ | .uround dir _ | .requant dir _ _ => dir.namesPolicy
  | .clip _ | .wrap | .trunc _ | .bfNew _ | .bfGetbit | .bfGet | .bfSetbit | .bfSet | .bfRev | .bfOnes | .bfZeros
  | .invtop | .svNew _ _ | .svGet _ | .svGetr _ | .svSet _ | .svSetr _ | .bfCat => true

/-- A container is well-formed when `width >= 1` and `0 <= data < 2^width` (R13). -/
abbrev Container.wf (c : Container) : Prop := 1 ≤ c.width ∧ 0 ≤ c.data ∧ c.data < 2 ^ c.width.toNat

/-- A payload is well-formed: a container is (R13), and a list of bit indices is strictly ascending (R65). -/
def Payload.wf : Payload → Prop
  | .int _ => True
  | .cont c => c.wf
  | .list indices => indices.Pairwise (· < ·)

/-- A response is well-formed: its payload is present exactly when its status is `OK` (R17), and is well-formed. -/
def Response.wf (r : Response) : Prop := (r.status = .ok ↔ r.payload.isSome) ∧ ∀ p, r.payload = some p → p.wf

/-- Instance parameters are well-formed when a finite width is at least 1. -/
def Config.Ports.wf (p : Config.Ports) : Bool :=
  p.dataW.all (1 ≤ ·) && p.maxBfW.all (1 ≤ ·)

end Sys2Proof
end

