-- ==== Sys2Proof/Safety.lean ====
section
/-! DEFINITION. The terms claims use: how an instruction answers, what states are sound, and what a safe run is. -/

namespace Sys2Proof.Machine

/-- Instruction `i` completes at `s` with response `r`, and this is all that changes: the request is no longer in flight,
`r` is the response delivered, and every other part of the state is as before (R17, R25, R33). -/
def Answers (i : Instr) (s : State) (r : Response) : Prop :=
  exec i s = .next { s with inFlight := none, response := some r }

/-- The payload kind of each operation, the payload column of R42. -/
def payloadKind : Instr → PayloadKind
  | .clip _ | .wrap | .round _ _ | .uround _ _ | .trunc _ | .requant _ _ _ => .int
  | .bfGetbit | .bfGet | .bfRev | .invtop | .svGet _ | .svGetr _ => .int
  | .bfNew _ | .bfSetbit | .bfSet | .svNew _ _ | .svSet _ | .svSetr _ | .bfCat => .cont
  | .bfOnes | .bfZeros => .list

/-- The errors each operation can raise, the last column of R75. -/
def mayRaise : Instr → List Status
  | .clip _ | .wrap | .trunc _ => []
  | .round _ _ => [.configurationError]
  | .uround _ _ => [.configurationError, .domainError]
  | .requant _ _ _ => [.configurationError, .rangeError]
  | .bfNew _ | .svNew _ _ => [.domainError, .rangeError]
  | .bfGetbit | .bfGet | .bfSetbit | .bfSet | .bfRev | .bfOnes | .bfZeros | .invtop | .svGet _ | .svGetr _ | .svSet _
  | .svSetr _ | .bfCat => [.rangeError]

/-- Sound states: variables are listed in canonical form and hold well-formed values (R13, R21), a delivered response is
well-formed (R17), and one status has been received for each line passed (R49). -/
structure State.Sound (s : State) : Prop where
  canonical : VarsWf s.vars
  values    : ∀ x p, lookup x s.vars = some p → p.wf
  delivered : ∀ r, s.response = some r → r.wf
  counted   : s.statuses.length = s.pos

/-- The request in flight is the one that line `pos` issues, with the variables as they stand (R35, R49). -/
def State.FlightMatchesLine (s : State) : Prop :=
  ∀ q, s.inFlight = some q → ∃ l, s.program[s.pos]? = some l ∧ readLine s.vars l = .ok q

/-- A run of `k` steps from `s` is safe when it ends in a state: no program fault (R49) and no refusal (R80). -/
def SafeRun (k : Nat) (s : State) : Prop := ∃ t, Sys2Proof.core.run k s = .next t

/-- Whether a program has ended: its last response is delivered (R96). -/
def State.Ended (s : State) : Prop := s.inFlight = none ∧ s.program.length ≤ s.pos

end Sys2Proof.Machine
end

