-- ==== Sys2Proof/Certificates/Slice0/Obligations.lean ====
section
/-! DEFINITION. The statements for the provers, file by file of spec/. `Answers i s r` says that the instruction `i`
completes at `s` with response `r` and changes nothing else; each statement of a result is so its frame and its completion
as well. Bit `j` of `d` is written `d / 2 ^ j % 2`. -/

open Sys2Proof Sys2Proof.Machine

/-! ## Encoding (30_encoding.md) -/

/-- R39 to R45: the decoder reads every encoded instruction back, with every field at every value. -/
def Obligations.DecodeReadsEncodedInstruction : Prop :=
  ∀ i : Instr, decode (encode i) = some i

/-- R42, R44, R45: a word that decodes is the encoding of what it decodes to: no reserved bit is dropped. -/
def Obligations.DecodedWordIsItsEncoding : Prop :=
  ∀ (w : Word) (i : Instr), decode w = some i → encode i = w

/-- R44: a word is legal when exactly one row fits it, and at most one row can fit. -/
def Obligations.LegalWordFitsExactlyOneRow : Prop :=
  ∀ w : Word,
    ((decode w).isSome ↔ ∃ r ∈ opcodeTable, w &&& r.mask = r.pattern) ∧
    opcodeTable.Pairwise fun r r' => ¬ (w &&& r.mask = r.pattern ∧ w &&& r'.mask = r'.pattern)

/-- R42: words written out from the spec's encodings, one or more of each family, and reserved words. -/
def Obligations.SampleWordsDecode : Prop :=
  decode 0x00000101#32 = some (.clip true) ∧
  decode 0x00000002#32 = some .wrap ∧
  decode 0x00000C03#32 = some (.round .halfEven true) ∧
  decode 0x00000604#32 = some (.uround .unsupported false) ∧
  decode 0x00000105#32 = some (.trunc true) ∧
  decode 0x00001206#32 = some (.requant .halfAway true false) ∧
  decode 0x00004010#32 = some (.bfNew true) ∧
  decode 0x00000014#32 = some .bfSet ∧
  decode 0x00034020#32 = some (.svNew .doubleword true) ∧
  decode 0x00010024#32 = some (.svSetr .halfword) ∧
  decode 0x00000030#32 = some .bfCat ∧
  decode 0x00000041#32 = none ∧ decode 0x00000102#32 = none ∧ decode 0x00000000#32 = none

/-- R41: `SW` names the symbol width `8 * 2^SW`. -/
def Obligations.SymbolWidthOfField : Prop :=
  ∀ b : BitVec 2, symbolBits (SymWidth.ofBits b) = 8 * 2 ^ b.toNat

/-- R43, R47: every assembler form's word decodes to the form's instruction, with as many operands as it reads slots; and
the forms spell exactly the instructions that name an operation (R44). -/
def Obligations.AssemblerFormsSpellTheInstructions : Prop :=
  (∀ (dst : Option VarName) (f : Asm),
    decode (assemble dst f).cmd = some f.instr ∧
    f.containers.length = (slotUse f.instr).conts ∧ f.integers.length = (slotUse f.instr).ints) ∧
  ∀ i : Instr, i.namesOperation = true ↔ ∃ f : Asm, f.instr = i

/-- R48: what each pseudo-instruction expands to, as the instruction and the operands it supplies. -/
def Obligations.PseudoInstructionExpansions : Prop :=
  (∀ v r, (Pseudo.uround v r).expand = .uround .halfUp v r) ∧
  (∀ v r ow, (Pseudo.uroundClip v r ow).expand = .uroundClip .halfUp v r ow) ∧
  (∀ v iw ow, (Pseudo.requant v iw ow).expand = .requant .halfUp false false v iw ow (.lit 0) (.lit 0)) ∧
  (∀ d x y v iw ow lw, (Pseudo.requantNoGain d x y v iw ow lw).expand = .requant d x y v iw ow lw (.lit 0)) ∧
  (∀ c h l, (Pseudo.bfSetall c h l).expand = .bfSet c h l (.lit (-1))) ∧
  (∀ sz v n, (Pseudo.sizedNew sz v n).expand = .svNew sz v n ∧ (Pseudo.sizedNewMin sz v).expand = .svNewMin sz v) ∧
  (∀ sz c h l, (Pseudo.sizedGet sz c h).expand = .svGet sz c h ∧ (Pseudo.sizedGetr sz c h l).expand = .svGetr sz c h l) ∧
  (∀ sz c h l x, (Pseudo.sizedSet sz c h x).expand = .svSet sz c h x ∧
    (Pseudo.sizedSetr sz c h l x).expand = .svSetr sz c h l x)

/-! ## The quantization units (40_clipper.md to 43_requantizer.md) -/

/-- R50: `clip` and `clip.sym` of a value to `w` bits; `n` is `w - 1`. -/
def Obligations.ClipSaturatesToTheWidth : Prop :=
  ∀ (s : State) (q : Request) (sym : Bool),
    s.inFlight = some q → intFits s.ports q.a → intFits s.ports q.b →
    (q.b ≤ 0 → Answers (.clip sym) s (.ret (.int 0))) ∧
    ∀ n : Nat, q.b = n + 1 → ∀ low : Int, low = (if sym then -2 ^ n + 1 else -2 ^ n) →
      (q.a > 2 ^ n - 1 → Answers (.clip sym) s (.ret (.int (2 ^ n - 1)))) ∧
      (q.a < low → Answers (.clip sym) s (.ret (.int low))) ∧
      (low ≤ q.a → q.a ≤ 2 ^ n - 1 → Answers (.clip sym) s (.ret (.int q.a)))

/-- R51: `wrap` of a value to `w` bits; `n` is `w - 1`. -/
def Obligations.WrapReducesToTheWidth : Prop :=
  ∀ (s : State) (q : Request),
    s.inFlight = some q → intFits s.ports q.a → intFits s.ports q.b →
    (q.b ≤ 0 → Answers .wrap s (.ret (.int 0))) ∧
    ∀ n : Nat, q.b = n + 1 →
      (q.a % 2 ^ (n + 1) < 2 ^ n → Answers .wrap s (.ret (.int (q.a % 2 ^ (n + 1))))) ∧
      (2 ^ n ≤ q.a % 2 ^ (n + 1) → Answers .wrap s (.ret (.int (q.a % 2 ^ (n + 1) - 2 ^ (n + 1)))))

/-- R51, derived there: the result of `wrap` is the one integer of the `w`-bit range that is congruent to the value. -/
def Obligations.WrapResultIsTheOneInRange : Prop :=
  ∀ (s : State) (q : Request) (n : Nat) (v : Int),
    s.inFlight = some q → intFits s.ports q.a → intFits s.ports q.b → q.b = n + 1 →
    (Answers .wrap s (.ret (.int v)) ↔ -2 ^ n ≤ v ∧ v < 2 ^ n ∧ (2 : Int) ^ (n + 1) ∣ q.a - v)

/-- R52: the laws the source states of `clip` and `wrap`; `n` is `w - 1`. -/
def Obligations.ClipAndWrapLaws : Prop :=
  ∀ (s : State) (q : Request) (n : Nat),
    s.inFlight = some q → intFits s.ports q.a → intFits s.ports q.b → q.b = n + 1 →
    (-2 ^ n ≤ q.a → q.a ≤ 2 ^ n - 1 →
      Answers .wrap s (.ret (.int q.a)) ∧ Answers (.clip false) s (.ret (.int q.a))) ∧
    (q.a > 2 ^ n - 1 → ∀ sym, Answers (.clip sym) s (.ret (.int (2 ^ n - 1)))) ∧
    (q.a < -2 ^ n →
      Answers (.clip false) s (.ret (.int (-2 ^ n))) ∧ Answers (.clip true) s (.ret (.int (-2 ^ n + 1))))

/-- R53, R54: `round`. `n` is `r - 1`, so that the half point is `2^n`. Without a clamp the result is the policy's; with
one it is the lesser of that and the signed maximum of `ow` bits, and no clamp applies for `ow <= 0`. -/
def Obligations.RoundFollowsItsPolicy : Prop :=
  ∀ (s : State) (q : Request) (dir : Dir) (clp : Bool),
    s.inFlight = some q → intFits s.ports q.a → intFits s.ports q.b → (clp → intFits s.ports q.c) →
    (dir = .unsupported → Answers (.round dir clp) s (.raise .configurationError)) ∧
    (dir ≠ .unsupported → q.b ≤ 0 → Answers (.round dir clp) s (.ret (.int q.a))) ∧
    ∀ (n : Nat) (up v : Int), dir ≠ .unsupported → q.b = n + 1 → up = (q.a + 2 ^ n) / 2 ^ (n + 1) →
      (dir = .halfUp → v = up) →
      (dir = .halfAway → v = if 0 ≤ q.a then up else (q.a + 2 ^ n - 1) / 2 ^ (n + 1)) →
      (dir = .halfEven → v = if q.a % 2 ^ (n + 1) = 2 ^ n ∧ up % 2 = 1 then up - 1 else up) →
      (clp = false → Answers (.round dir clp) s (.ret (.int v))) ∧
      (clp = true → q.c ≤ 0 → Answers (.round dir clp) s (.ret (.int v))) ∧
      (clp = true → 1 ≤ q.c → Answers (.round dir clp) s (.ret (.int (min v (2 ^ (q.c - 1).toNat - 1)))))

/-- R53, derived there: `round` without a clamp gives a nearest integer to `v / 2^r`, and at a tie `k + 1/2` the one its
policy names. -/
def Obligations.RoundGivesTheNearestInteger : Prop :=
  ∀ (s : State) (q : Request) (dir : Dir) (n : Nat),
    s.inFlight = some q → intFits s.ports q.a → intFits s.ports q.b → dir ≠ .unsupported → q.b = n + 1 →
    ∃ v : Int, Answers (.round dir false) s (.ret (.int v)) ∧
      2 * |2 ^ (n + 1) * v - q.a| ≤ 2 ^ (n + 1) ∧
      ∀ k : Int, q.a = 2 ^ (n + 1) * k + 2 ^ n →
        (dir = .halfUp → v = k + 1) ∧
        (dir = .halfAway → v = if 0 ≤ k then k + 1 else k) ∧
        (dir = .halfEven → v = if k % 2 = 0 then k else k + 1)

/-- R55: `uround`: the direction is checked before the sign; of a non-negative value it gives what `round` gives without a
clamp, clamped at `ow + 1` bits; and `HALF_UP` and `HALF_AWAY` coincide. -/
def Obligations.UroundIsRoundOfNonNegativeValues : Prop :=
  ∀ (s : State) (q : Request) (dir : Dir) (clp : Bool),
    s.inFlight = some q → intFits s.ports q.a → intFits s.ports q.b → (clp → intFits s.ports q.c) →
    (dir = .unsupported → Answers (.uround dir clp) s (.raise .configurationError)) ∧
    (dir ≠ .unsupported → q.a < 0 → Answers (.uround dir clp) s (.raise .domainError)) ∧
    (dir ≠ .unsupported → 0 ≤ q.a → q.b ≤ 0 → Answers (.uround dir clp) s (.ret (.int q.a))) ∧
    (dir ≠ .unsupported → 0 ≤ q.a → 1 ≤ q.b →
      ∃ v, Answers (.round dir false) s (.ret (.int v)) ∧
        (clp = false ∨ q.c ≤ 0 → Answers (.uround dir clp) s (.ret (.int v))) ∧
        (clp = true → 1 ≤ q.c → Answers (.uround dir clp) s (.ret (.int (min v (2 ^ q.c.toNat - 1)))))) ∧
    (0 ≤ q.a → exec (.uround .halfUp clp) s = exec (.uround .halfAway clp) s)

/-- R56: `trunc` and `trunc.sym`. -/
def Obligations.TruncShiftsOutTheLowBits : Prop :=
  ∀ (s : State) (q : Request) (sym : Bool),
    s.inFlight = some q → intFits s.ports q.a → intFits s.ports q.b →
    (q.b ≤ 0 → Answers (.trunc sym) s (.ret (.int q.a))) ∧
    (1 ≤ q.b → sym = false ∨ 0 ≤ q.a → Answers (.trunc sym) s (.ret (.int (q.a / 2 ^ q.b.toNat)))) ∧
    (1 ≤ q.b → sym = true → q.a < 0 → Answers (.trunc sym) s (.ret (.int (-((-q.a) / 2 ^ q.b.toNat)))))

/-- R57: `requant` is the chain of the unit operations: (a) wrap, (b) round or truncate, (c) clip or wrap, (d) the gain
shift and wrap, each as its own request to the reference instance. -/
def Obligations.RequantIsTheChainOfUnits : Prop :=
  ∀ (s : State) (q : Request) (dir : Dir) (rlsb cmsb : Bool) (sub : Int → Int → State),
    s.inFlight = some q → intFits s.ports q.a → intFits s.ports q.b → intFits s.ports q.c → intFits s.ports q.d →
    intFits s.ports q.e →
    (∀ x y, sub x y = { s with ports := Config.reference, inFlight := some { q with a := x, b := y } }) →
    (dir = .unsupported → Answers (.requant dir rlsb cmsb) s (.raise .configurationError)) ∧
    (dir ≠ .unsupported → q.e < 0 → Answers (.requant dir rlsb cmsb) s (.raise .rangeError)) ∧
    (dir ≠ .unsupported → 0 ≤ q.e → ∃ v1 v2 v3 v4 : Int,
      Answers .wrap (sub q.a q.b) (.ret (.int v1)) ∧
      Answers (if rlsb then .round dir false else .trunc false) (sub v1 q.d) (.ret (.int v2)) ∧
      Answers (if cmsb then .clip false else .wrap) (sub v2 q.c) (.ret (.int v3)) ∧
      Answers .wrap (sub (v3 * 2 ^ q.e.toNat) q.c) (.ret (.int v4)) ∧
      (intFits s.ports v4 → Answers (.requant dir rlsb cmsb) s (.ret (.int v4))))

/-- R57 and 90_conflicts.md C3: with no low bits removed and no gain, `requant` to the same width with `clip_msb` is
`wrap`, and the identity on the values of that width. -/
def Obligations.RequantToTheSameWidth : Prop :=
  ∀ (s : State) (q : Request) (dir : Dir),
    s.inFlight = some q → intFits s.ports q.a → intFits s.ports q.b → q.c = q.b → q.d = 0 → q.e = 0 →
    intFits s.ports 0 → dir ≠ .unsupported →
    (∀ r, Answers .wrap s r → Answers (.requant dir false true) s r) ∧
    ∀ n : Nat, q.b = n + 1 → -2 ^ n ≤ q.a → q.a < 2 ^ n → Answers (.requant dir false true) s (.ret (.int q.a))

/-! ## The bit-field slicer and setter (44_bitfield.md) -/

/-- R58: every operation that reads a container slot answers RangeError for an ill-formed container there. That a finite
container port carries a pair with negative data or a width below 1 is the model's inference (log entry 2). -/
def Obligations.IllFormedContainerIsRangeError : Prop :=
  ∀ (s : State) (q : Request) (sw : SymWidth) (i : Instr),
    s.inFlight = some q → operandsFit s.ports (slotUse i) q →
    (i ∈ [.bfGetbit, .bfGet, .bfSetbit, .bfSet, .bfRev, .bfOnes, .bfZeros, .svGet sw, .svGetr sw, .svSet sw, .svSetr sw,
        .bfCat] → ¬ q.ca.wf → Answers i s (.raise .rangeError)) ∧
    (i = .bfCat → ¬ q.cb.wf → Answers i s (.raise .rangeError))

/-- R59: `bf.new` with a width, and with the width omitted, where it is the least `k >= 1` with `v < 2^k`. -/
def Obligations.BfNewConstructsAContainer : Prop :=
  ∀ (s : State) (q : Request) (womit : Bool),
    s.inFlight = some q → intFits s.ports q.a → (womit = false → intFits s.ports q.b) →
    (q.a < 0 → Answers (.bfNew womit) s (.raise .domainError)) ∧
    (womit = true → 0 ≤ q.a → ∀ k : Nat, 1 ≤ k → q.a < 2 ^ k → (k = 1 ∨ 2 ^ (k - 1) ≤ q.a) →
      contFits s.ports ⟨q.a, k⟩ → Answers (.bfNew womit) s (.ret (.cont ⟨q.a, k⟩))) ∧
    (womit = false → 0 ≤ q.a → q.b ≤ 0 ∨ 2 ^ q.b.toNat ≤ q.a → Answers (.bfNew womit) s (.raise .rangeError)) ∧
    (womit = false → 0 ≤ q.a → 1 ≤ q.b → q.a < 2 ^ q.b.toNat → contFits s.ports ⟨q.a, q.b⟩ →
      Answers (.bfNew womit) s (.ret (.cont ⟨q.a, q.b⟩)))

/-- R60: `bf.getbit`. -/
def Obligations.BfGetbitReadsOneBit : Prop :=
  ∀ (s : State) (q : Request),
    s.inFlight = some q → contFits s.ports q.ca → intFits s.ports q.a → q.ca.wf →
    (q.a < 0 ∨ q.ca.width ≤ q.a → Answers .bfGetbit s (.raise .rangeError)) ∧
    (0 ≤ q.a → q.a < q.ca.width → ∀ v, v = q.ca.data / 2 ^ q.a.toNat % 2 → intFits s.ports v →
      Answers .bfGetbit s (.ret (.int v)))

/-- R61: `bf.get`. -/
def Obligations.BfGetReadsARange : Prop :=
  ∀ (s : State) (q : Request),
    s.inFlight = some q → contFits s.ports q.ca → intFits s.ports q.a → intFits s.ports q.b → q.ca.wf →
    (q.a < q.b ∨ q.b < 0 ∨ q.ca.width ≤ q.a → Answers .bfGet s (.raise .rangeError)) ∧
    (0 ≤ q.b → q.b ≤ q.a → q.a < q.ca.width →
      ∀ v, v = q.ca.data / 2 ^ q.b.toNat % 2 ^ (q.a - q.b + 1).toNat → intFits s.ports v →
      Answers .bfGet s (.ret (.int v)))

/-- R62: `bf.setbit`: the new container has bit `i` as given and every other bit, and its width, as before. -/
def Obligations.BfSetbitWritesOneBit : Prop :=
  ∀ (s : State) (q : Request),
    s.inFlight = some q → contFits s.ports q.ca → intFits s.ports q.a → intFits s.ports q.b → q.ca.wf →
    (q.a < 0 ∨ q.ca.width ≤ q.a ∨ (q.b ≠ 0 ∧ q.b ≠ 1) → Answers .bfSetbit s (.raise .rangeError)) ∧
    (0 ≤ q.a → q.a < q.ca.width → q.b = 0 ∨ q.b = 1 →
      ∃ d, Answers .bfSetbit s (.ret (.cont ⟨d, q.ca.width⟩)) ∧ Container.wf ⟨d, q.ca.width⟩ ∧
        ∀ j : Nat, d / 2 ^ j % 2 = if (j : Int) = q.a then q.b else q.ca.data / 2 ^ j % 2)

/-- R63: `bf.set`: the bits of the range as given, all ones for the sentinel -1; every other bit, and the width, as
before. -/
def Obligations.BfSetWritesARange : Prop :=
  ∀ (s : State) (q : Request),
    s.inFlight = some q → contFits s.ports q.ca → intFits s.ports q.a → intFits s.ports q.b → intFits s.ports q.c →
    q.ca.wf →
    (q.a < q.b ∨ q.b < 0 ∨ q.ca.width ≤ q.a → Answers .bfSet s (.raise .rangeError)) ∧
    ∀ h l : Nat, q.a = h → q.b = l → l ≤ h → (h : Int) < q.ca.width →
      (q.c < -1 ∨ 2 ^ (h - l + 1) ≤ q.c → Answers .bfSet s (.raise .rangeError)) ∧
      (-1 ≤ q.c → q.c < 2 ^ (h - l + 1) →
        ∃ d, Answers .bfSet s (.ret (.cont ⟨d, q.ca.width⟩)) ∧ Container.wf ⟨d, q.ca.width⟩ ∧
          ∀ j : Nat, d / 2 ^ j % 2 =
            if l ≤ j ∧ j ≤ h then (if q.c = -1 then 1 else q.c / 2 ^ (j - l) % 2) else q.ca.data / 2 ^ j % 2)

/-- The source's container round trip (R63 corner cases): what `bf.set` writes, `bf.get` of the new container reads. -/
def Obligations.BfGetReadsWhatBfSetWrote : Prop :=
  ∀ (s t u : State) (q : Request) (c : Container),
    s.inFlight = some q → 0 ≤ q.c → exec .bfSet s = .next t → t.response = some (.ret (.cont c)) →
    u = { t with inFlight := some { q with ca := c } } → Answers .bfGet u (.ret (.int q.c))

/-- R64: `bf.rev`: bit `i` of the result is bit `width - 1 - i` of the container. -/
def Obligations.BfRevReversesTheBits : Prop :=
  ∀ (s : State) (q : Request),
    s.inFlight = some q → contFits s.ports q.ca → q.ca.wf →
    ∃ v : Int, 0 ≤ v ∧ v < 2 ^ q.ca.width.toNat ∧
      (∀ i : Nat, i < q.ca.width.toNat → v / 2 ^ i % 2 = q.ca.data / 2 ^ (q.ca.width.toNat - 1 - i) % 2) ∧
      (intFits s.ports v → Answers .bfRev s (.ret (.int v)))

/-- R64 corner case: reversing twice restores the container's data. -/
def Obligations.BfRevTwiceRestoresTheData : Prop :=
  ∀ (s t u : State) (q : Request) (v : Int),
    s.inFlight = some q → exec .bfRev s = .next t → t.response = some (.ret (.int v)) → intFits s.ports q.ca.data →
    u = { t with inFlight := some { q with ca := ⟨v, q.ca.width⟩ } } → Answers .bfRev u (.ret (.int q.ca.data))

/-- R65, R66: `bf.ones` and `bf.zeros`: the strictly ascending lists of the indices below the width whose bit is 1, and
whose bit is 0. That a list is delivered at finite ports whatever its length and indices is the model's inference (log
entry 4). -/
def Obligations.BfOnesAndZerosListPositions : Prop :=
  ∀ (s : State) (q : Request),
    s.inFlight = some q → contFits s.ports q.ca → q.ca.wf →
    ∃ ones zeros : List Nat,
      Answers .bfOnes s (.ret (.list ones)) ∧ Answers .bfZeros s (.ret (.list zeros)) ∧
      ones.Pairwise (· < ·) ∧ zeros.Pairwise (· < ·) ∧
      (∀ i : Nat, i ∈ ones ↔ (i : Int) < q.ca.width ∧ q.ca.data / 2 ^ i % 2 = 1) ∧
      (∀ i : Nat, i ∈ zeros ↔ (i : Int) < q.ca.width ∧ q.ca.data / 2 ^ i % 2 = 0)

/-- R67: `invtop`: the top bit of the masked value inverted; `n` is `w - 1`. -/
def Obligations.InvtopInvertsTheTopBit : Prop :=
  ∀ (s : State) (q : Request),
    s.inFlight = some q → intFits s.ports q.a → intFits s.ports q.b →
    (q.b ≤ 0 → Answers .invtop s (.raise .rangeError)) ∧
    ∀ (n : Nat) (u v : Int), q.b = n + 1 → u = q.a % 2 ^ (n + 1) →
      v = (if 2 ^ n ≤ u then u - 2 ^ n else u + 2 ^ n) → intFits s.ports v → Answers .invtop s (.ret (.int v))

/-! ## Symbol views (45_symbol_views.md) -/

/-- R69: `sv.new` with a count, and with the count omitted, where it is the least `k >= 1` with `v < 2^(sw*k)`. -/
def Obligations.SvNewConstructsASymbolView : Prop :=
  ∀ (s : State) (q : Request) (sz : SymWidth) (womit : Bool) (sw : Nat),
    s.inFlight = some q → intFits s.ports q.a → (womit = false → intFits s.ports q.b) →
    sw = 8 * 2 ^ sz.swBits.toNat →
    (q.a < 0 → Answers (.svNew sz womit) s (.raise .domainError)) ∧
    (womit = true → 0 ≤ q.a → ∀ k : Nat, 1 ≤ k → q.a < 2 ^ (sw * k) → (k = 1 ∨ 2 ^ (sw * (k - 1)) ≤ q.a) →
      contFits s.ports ⟨q.a, sw * k⟩ → Answers (.svNew sz womit) s (.ret (.cont ⟨q.a, sw * k⟩))) ∧
    (womit = false → 0 ≤ q.a → q.b ≤ 0 ∨ 2 ^ (sw * q.b.toNat) ≤ q.a →
      Answers (.svNew sz womit) s (.raise .rangeError)) ∧
    (womit = false → 0 ≤ q.a → 1 ≤ q.b → q.a < 2 ^ (sw * q.b.toNat) → contFits s.ports ⟨q.a, sw * q.b⟩ →
      Answers (.svNew sz womit) s (.ret (.cont ⟨q.a, sw * q.b⟩)))

/-- R70: `sv.get`. -/
def Obligations.SvGetReadsASymbol : Prop :=
  ∀ (s : State) (q : Request) (sz : SymWidth) (sw : Nat),
    s.inFlight = some q → contFits s.ports q.ca → intFits s.ports q.a → q.ca.wf → sw = 8 * 2 ^ sz.swBits.toNat →
    (q.a < 0 ∨ q.ca.width < (q.a + 1) * sw → Answers (.svGet sz) s (.raise .rangeError)) ∧
    (0 ≤ q.a → (q.a + 1) * sw ≤ q.ca.width → ∀ v, v = q.ca.data / 2 ^ (q.a.toNat * sw) % 2 ^ sw → intFits s.ports v →
      Answers (.svGet sz) s (.ret (.int v)))

/-- R71: `sv.getr`. -/
def Obligations.SvGetrReadsSymbols : Prop :=
  ∀ (s : State) (q : Request) (sz : SymWidth) (sw : Nat),
    s.inFlight = some q → contFits s.ports q.ca → intFits s.ports q.a → intFits s.ports q.b → q.ca.wf →
    sw = 8 * 2 ^ sz.swBits.toNat →
    (q.a < q.b ∨ q.b < 0 ∨ q.ca.width < (q.a + 1) * sw → Answers (.svGetr sz) s (.raise .rangeError)) ∧
    (0 ≤ q.b → q.b ≤ q.a → (q.a + 1) * sw ≤ q.ca.width →
      ∀ v, v = q.ca.data / 2 ^ (q.b.toNat * sw) % 2 ^ ((q.a - q.b + 1).toNat * sw) → intFits s.ports v →
      Answers (.svGetr sz) s (.ret (.int v)))

/-- R72: `sv.set`: the bits of the symbol as given, all ones for -1; every other bit, and the width, as before. -/
def Obligations.SvSetWritesASymbol : Prop :=
  ∀ (s : State) (q : Request) (sz : SymWidth) (sw : Nat),
    s.inFlight = some q → contFits s.ports q.ca → intFits s.ports q.a → intFits s.ports q.b → q.ca.wf →
    sw = 8 * 2 ^ sz.swBits.toNat →
    (q.a < 0 ∨ q.ca.width < (q.a + 1) * sw ∨ q.b < -1 ∨ 2 ^ sw ≤ q.b → Answers (.svSet sz) s (.raise .rangeError)) ∧
    ∀ k : Nat, q.a = k → (k + 1) * sw ≤ q.ca.width → -1 ≤ q.b → q.b < 2 ^ sw →
      ∃ d, Answers (.svSet sz) s (.ret (.cont ⟨d, q.ca.width⟩)) ∧ Container.wf ⟨d, q.ca.width⟩ ∧
        ∀ j : Nat, d / 2 ^ j % 2 =
          if k * sw ≤ j ∧ j < (k + 1) * sw then (if q.b = -1 then 1 else q.b / 2 ^ (j - k * sw) % 2)
          else q.ca.data / 2 ^ j % 2

/-- R73: `sv.setr`: the bits of the symbols as given, all ones for -1; every other bit, and the width, as before. -/
def Obligations.SvSetrWritesSymbols : Prop :=
  ∀ (s : State) (q : Request) (sz : SymWidth) (sw : Nat),
    s.inFlight = some q → contFits s.ports q.ca → intFits s.ports q.a → intFits s.ports q.b → intFits s.ports q.c →
    q.ca.wf → sw = 8 * 2 ^ sz.swBits.toNat →
    (q.a < q.b ∨ q.b < 0 ∨ q.ca.width < (q.a + 1) * sw → Answers (.svSetr sz) s (.raise .rangeError)) ∧
    ∀ h l : Nat, q.a = h → q.b = l → l ≤ h → (h + 1) * sw ≤ q.ca.width →
      (q.c < -1 ∨ 2 ^ ((h - l + 1) * sw) ≤ q.c → Answers (.svSetr sz) s (.raise .rangeError)) ∧
      (-1 ≤ q.c → q.c < 2 ^ ((h - l + 1) * sw) →
        ∃ d, Answers (.svSetr sz) s (.ret (.cont ⟨d, q.ca.width⟩)) ∧ Container.wf ⟨d, q.ca.width⟩ ∧
          ∀ j : Nat, d / 2 ^ j % 2 =
            if l * sw ≤ j ∧ j < (h + 1) * sw then (if q.c = -1 then 1 else q.c / 2 ^ (j - l * sw) % 2)
            else q.ca.data / 2 ^ j % 2)

/-- R70 to R73, derived there: on the reference instance a symbol access answers as the bit access over the symbols'
bits, errors included. -/
def Obligations.SymbolAccessIsBitRangeAccess : Prop :=
  ∀ (s : State) (q : Request) (sz : SymWidth) (sw : Int) (bits : Int → Int → Int → State) (r : Response),
    s.inFlight = some q → s.ports = Config.reference → sw = 8 * 2 ^ sz.swBits.toNat →
    (∀ h l x, bits h l x = { s with inFlight := some { q with a := h, b := l, c := x } }) →
    (Answers (.svGet sz) s r ↔ Answers .bfGet (bits ((q.a + 1) * sw - 1) (q.a * sw) 0) r) ∧
    (Answers (.svGetr sz) s r ↔ Answers .bfGet (bits ((q.a + 1) * sw - 1) (q.b * sw) 0) r) ∧
    (Answers (.svSet sz) s r ↔ Answers .bfSet (bits ((q.a + 1) * sw - 1) (q.a * sw) q.b) r) ∧
    (Answers (.svSetr sz) s r ↔ Answers .bfSet (bits ((q.a + 1) * sw - 1) (q.b * sw) q.c) r)

/-- R28, derived there: bytes `2k+1` and `2k` of a container, read side by side, are halfword `k`. -/
def Obligations.TwoBytesAreOneHalfword : Prop :=
  ∀ (s t : State) (q : Request) (k : Int) (r : Response),
    s.inFlight = some q → s.ports = Config.reference → q.a = 2 * k + 1 → q.b = 2 * k →
    t = { s with inFlight := some { q with a := k } } →
    (Answers (.svGetr .byte) s r ↔ Answers (.svGet .halfword) t r)

/-! ## The concatenator (46_concatenator.md) -/

/-- R74: `bf.cat`: the first container becomes the more significant part; the widths add. -/
def Obligations.BfCatJoinsTwoContainers : Prop :=
  ∀ (s : State) (q : Request) (c : Container),
    s.inFlight = some q → contFits s.ports q.ca → contFits s.ports q.cb → q.ca.wf → q.cb.wf →
    c = ⟨q.ca.data * 2 ^ q.cb.width.toNat + q.cb.data, q.ca.width + q.cb.width⟩ →
    c.wf ∧ (contFits s.ports c → Answers .bfCat s (.ret (.cont c)))

/-- R74, derived there: of a concatenation, `bf.get` of the upper part gives the first container's data and of the lower
part the second's. -/
def Obligations.BfGetTakesAConcatenationApart : Prop :=
  ∀ (s t : State) (q : Request) (c : Container) (sub : Int → Int → State),
    s.inFlight = some q → s.ports = Config.reference → exec .bfCat s = .next t → t.response = some (.ret (.cont c)) →
    (∀ h l, sub h l = { t with inFlight := some { q with ca := c, a := h, b := l } }) →
    Answers .bfGet (sub (c.width - 1) q.cb.width) (.ret (.int q.ca.data)) ∧
    Answers .bfGet (sub (q.cb.width - 1) 0) (.ret (.int q.cb.data))

/-! ## All operations: responses, refusals, frames (00_scope.md, 10_state.md, 60_exceptions.md) -/

/-- R17, R33, R79, R92: whatever an instruction answers, it changes nothing but the request in flight and the response; a
write leaves the requester's variables alone. -/
def Obligations.ExecChangesOnlyTheResponse : Prop :=
  ∀ (i : Instr) (s t : State), exec i s = .next t →
    ∃ r, t.response = some r ∧ t.inFlight = none ∧ t.vars = s.vars ∧ t.program = s.program ∧ t.pos = s.pos ∧
      t.statuses = s.statuses ∧ t.ports = s.ports ∧ t.shared = s.shared ∧ t.resetAsserted = s.resetAsserted

/-- R13, R17, R42: a response is well-formed, its payload is present exactly when the status is OK, and has the
operation's kind. -/
def Obligations.ResponsesAreWellFormedAndOfTheirKind : Prop :=
  ∀ (i : Instr) (s t : State), exec i s = .next t →
    ∃ r, t.response = some r ∧ (r.status = .ok ↔ r.payload.isSome) ∧
      ∀ p, r.payload = some p → p.wf ∧ p.kind = payloadKind i

/-- R75, R77: the only statuses an operation answers with are OK and the errors of its rule. -/
def Obligations.OperationsRaiseOnlyTheirErrors : Prop :=
  ∀ (i : Instr) (s t : State) (r : Response), exec i s = .next t → t.response = some r →
    r.status = .ok ∨ r.status ∈ mayRaise i

/-- R81: of two errors met by one request, the first in the order ConfigurationError, DomainError, RangeError is
reported; and IllegalCommand before them all, whatever the slots hold. -/
def Obligations.ErrorsAreReportedByPriority : Prop :=
  ∀ (s : State) (q : Request), s.inFlight = some q → s.ports = Config.reference →
    (q.a < 0 → ∀ clp, Answers (.uround .unsupported clp) s (.raise .configurationError)) ∧
    (q.e < 0 → ∀ x y, Answers (.requant .unsupported x y) s (.raise .configurationError)) ∧
    (q.a < 0 → q.b ≤ 0 → Answers (.bfNew false) s (.raise .domainError) ∧
      ∀ sw, Answers (.svNew sw false) s (.raise .domainError)) ∧
    (decode q.cmd = none → s.resetAsserted = false →
      ∃ t, step s = .next t ∧ t.response = some (.raise .illegalCommand))

/-- R76: the status codes; 4, 5 and 6 are never produced. -/
def Obligations.StatusCodesOfTheTaxonomy : Prop :=
  statusCode .ok = 0#3 ∧ statusCode .configurationError = 1#3 ∧ statusCode .domainError = 2#3 ∧
  statusCode .rangeError = 3#3 ∧ statusCode .illegalCommand = 7#3 ∧
  ∀ e : Status, statusCode e ∉ [4#3, 5#3, 6#3]

/-- R14, R95: with the reference ports no request is refused, and every request is answered. -/
def Obligations.ReferenceInstanceAnswersEveryRequest : Prop :=
  ∀ (i : Instr) (s : State) (q : Request), s.inFlight = some q → s.ports = Config.reference →
    ∃ r, Answers i s r

/-- R14: an instance answers exactly as the reference instance does, or refuses: when a slot the operation reads, or the
exact payload, lies outside its port. The model's own: which containers a finite port carries (log entry 2), that the slots
are tested before the rule (log entry 3), that no list is refused (log entry 4), and that a refusal is the outcome `refused`
(log entry 6). -/
def Obligations.FiniteInstanceAnswersAsReferenceOrRefuses : Prop :=
  ∀ (i : Instr) (s : State) (q : Request) (r : Response),
    s.inFlight = some q → Answers i { s with ports := Config.reference } r →
    (operandsFit s.ports (slotUse i) q = false → exec i s = .refused .operandOutsidePort) ∧
    (operandsFit s.ports (slotUse i) q = true → payloadFits s.ports r = false →
      exec i s = .refused .payloadOutsidePort) ∧
    (operandsFit s.ports (slotUse i) q = true → payloadFits s.ports r = true → Answers i s r)

/-- R16: a slot the operation does not read has no effect on the answer. -/
def Obligations.UnreadSlotsHaveNoEffect : Prop :=
  ∀ (i : Instr) (s s' : State) (q q' : Request) (r : Response),
    s.inFlight = some q → s' = { s with inFlight := some q' } →
    q.contsRead (slotUse i) = q'.contsRead (slotUse i) → q.intsRead (slotUse i) = q'.intsRead (slotUse i) →
    (Answers i s r ↔ Answers i s' r)

/-- R25: two equal requests get equal responses, whatever came before: nothing else of the state reaches a response. -/
def Obligations.ResponseDependsOnTheRequestAlone : Prop :=
  ∀ (s s' t : State) (q : Request),
    s.inFlight = some q → s'.inFlight = some q → s.ports = s'.ports → s.resetAsserted = false →
    s'.resetAsserted = false → step s = .next t →
    ∃ t', step s' = .next t' ∧ t'.response = t.response

/-- R22: a write returns a container as wide as the one it was given. -/
def Obligations.WritesKeepTheWidth : Prop :=
  ∀ (i : Instr) (s t : State) (q : Request) (sw : SymWidth) (p : Payload),
    s.inFlight = some q → i ∈ [.bfSetbit, .bfSet, .svSet sw, .svSetr sw] → exec i s = .next t →
    t.response = some (.ret p) → ∃ d, p = .cont ⟨d, q.ca.width⟩

/-! ## The step, the requester and reset (20_memory.md, 30_encoding.md R49, 70_reset_and_hazards.md) -/

/-- R45, R49: a step with a request in flight whose word decodes runs that instruction; the requester then receives the
response: its status is appended, its payload written back, and the next line follows. A refusal stands, and there is no fault. The
model's choices: answer and receipt are one step (log entry 5); a refusal is the outcome `refused` (log entry 6); a response
to a request that no line issued is received in the same way (log entry 16). -/
def Obligations.StepRunsTheDecodedInstruction : Prop :=
  ∀ (s : State) (q : Request) (i : Instr),
    s.resetAsserted = false → s.inFlight = some q → decode q.cmd = some i →
    (∀ r, Answers i s r →
      step s = .next { s with
        inFlight := none
        response := some r
        statuses := s.statuses ++ [r.status]
        vars := writeBack s.destination r s.vars
        pos := s.pos + 1 }) ∧
    (∀ x, exec i s = .refused x → step s = .refused x) ∧ ∀ f, exec i s ≠ .fault f

/-- R49, R79: "if status == OK and the line has $dst: $dst <- payload"; otherwise the variable keeps its value, and every
other variable always does (R21). That a response to a request placed from outside while the line had not been issued is
received for that line is the model's choice (log entry 16). -/
def Obligations.ReceivedPayloadGoesToTheDestinationOnly : Prop :=
  ∀ (s t : State) (l : Line) (r : Response) (x : VarName),
    VarsWf s.vars → s.program[s.pos]? = some l → s.response = some r → t = receive s →
    t.statuses = s.statuses ++ [r.status] ∧ t.pos = s.pos + 1 ∧ VarsWf t.vars ∧
    (∀ p, r = .ret p → l.dst = some x → lookup x t.vars = some p) ∧
    (r.status ≠ .ok ∨ l.dst ≠ some x → lookup x t.vars = lookup x s.vars)

/-- R44, R78: a command word with no row that fits is answered IllegalCommand, with no payload, whatever the slots hold
and whatever the ports (the model's inference, log entry 3); the variables keep their values and the program goes on (in
the same step, the model's choice, log entry 5; the status and the line number also where no line issued the request, the
model's choice, log entry 16). -/
def Obligations.IllegalWordIsAnsweredIllegalCommand : Prop :=
  ∀ (s : State) (q : Request),
    s.resetAsserted = false → s.inFlight = some q → (∀ r ∈ opcodeTable, q.cmd &&& r.mask ≠ r.pattern) →
    step s = .next { s with
      inFlight := none
      response := some (.raise .illegalCommand)
      statuses := s.statuses ++ [.illegalCommand]
      pos := s.pos + 1 }

/-- R49: a line's request carries the line's word and its operands' values; a variable with no value, or of the wrong kind,
is a program fault, and no request is issued. That an unnamed container slot holds the pair (0, 0) is the model's inference
(log entry 11). -/
def Obligations.LineIssuesItsRequestOrFaults : Prop :=
  ∀ (s : State) (l : Line),
    s.resetAsserted = false → s.inFlight = none → s.program[s.pos]? = some l → s.shared = [] →
    (∀ q, step s = .next { s with inFlight := some q } ↔
      q.cmd = l.cmd ∧
      (∀ o c, (o, c) ∈ [(l.ca, q.ca), (l.cb, q.cb)] →
        (o = .unnamed ∧ c = ⟨0, 0⟩) ∨ ∃ x, o = .var x ∧ lookup x s.vars = some (.cont c)) ∧
      (∀ o v, (o, v) ∈ [(l.a, q.a), (l.b, q.b), (l.c, q.c), (l.d, q.d), (l.e, q.e)] →
        o = .lit v ∨ ∃ x, o = .var x ∧ lookup x s.vars = some (.int v))) ∧
    ((∀ q, step s ≠ .next { s with inFlight := some q }) →
      ∃ x, step s = .fault (.unsetVariable x) ∨ step s = .fault (.wrongKind x))

/-- R38, R94: a line that uses a variable which a second requester uses as well is refused, not interleaved. The
model's choices: the shared variables are a field of the state, of every kind (log entry 12); the refusal comes before a
program fault of the same line (log entry 19). -/
def Obligations.SharedVariableIsRefused : Prop :=
  ∀ (s : State) (l : Line) (x : VarName),
    s.resetAsserted = false → s.inFlight = none → s.program[s.pos]? = some l → x ∈ l.names → x ∈ s.shared →
    ∃ y, y ∈ s.shared ∧ step s = .refused (.sharedVariable y)

/-- R35: a request in flight is answered before any other is accepted, and one step answers it (the model's choice of a
step, log entry 5). That the status is appended and the line number advances also where no line issued the request is the
model's choice (log entry 16). -/
def Obligations.NoRequestIsAcceptedBeforeTheResponse : Prop :=
  ∀ (s t : State) (q : Request),
    s.resetAsserted = false → s.inFlight = some q → step s = .next t →
    t.inFlight = none ∧ t.pos = s.pos + 1 ∧
      ∃ r, t.response = some r ∧ t.outputPort = r ∧ t.statuses = s.statuses ++ [r.status]

/-- R35, R95: on the reference instance, with no variable shared, a line that meets no program fault is issued and answered
in two steps (the grain of steps is the model's choice, log entry 5). -/
def Obligations.EveryLineIsAnsweredInTwoSteps : Prop :=
  ∀ (s : State) (l : Line) (q : Request),
    s.resetAsserted = false → s.inFlight = none → s.ports = Config.reference → s.shared = [] →
    s.program[s.pos]? = some l → readLine s.vars l = .ok q →
    ∃ t, Sys2Proof.core.run 2 s = .next t ∧ t.pos = s.pos + 1 ∧ t.inFlight = none ∧
      t.statuses.length = s.statuses.length + 1

/-- R89, R90: when reset takes effect the request in flight gets no response, none is in flight, and no variable holds a
value. That an input asserts reset, which a step takes and clears, is the model's choice (log entry 9). -/
def Obligations.ResetDropsTheRequestAndTheVariables : Prop :=
  ∀ s : State, s.resetAsserted = true →
    ∃ t, step s = .next t ∧ t.inFlight = none ∧ t.response = none ∧ (∀ x, lookup x t.vars = none) ∧
      t.resetAsserted = false

/-- R26, R89, R90: the state right after reset. That the reset state is the instance with the reference ports is the model's
choice (log entry 1). -/
def Obligations.StateAfterReset : Prop :=
  State.reset.inFlight = none ∧ State.reset.response = none ∧ (∀ x, lookup x State.reset.vars = none) ∧
  State.reset.ports = Config.reference

/-- R13, R17, R21, R49: every step keeps a sound state sound: variables canonical and well-formed, the response
well-formed, one status for each line passed. The invariant is the model's own; that a request which no line issued
counts as a line passed is its choice (log entry 16). -/
def Obligations.StepKeepsSoundStates : Prop :=
  ∀ s t : State, s.Sound → step s = .next t → t.Sound

/-- The state after reset is sound. -/
def Obligations.ResetStateIsSound : Prop := State.reset.Sound

/-- R35, R49: every step keeps it so that a request in flight is the one its line issues. -/
def Obligations.StepKeepsRequestAndLineMatched : Prop :=
  ∀ s t : State, s.FlightMatchesLine → step s = .next t → t.FlightMatchesLine

/-- R8, R37: no step changes the instance's ports, the program, or which variables are shared; that these are fields of the
state, and that reset keeps them, is the model's choice (log entries 1, 9, 12). -/
def Obligations.StepKeepsPortsAndProgram : Prop :=
  ∀ s t : State, step s = .next t → t.ports = s.ports ∧ t.program = s.program ∧ t.shared = s.shared
end

