-- ==== Sys2Proof/Laws/Arith.lean ====
section
/-! SUPPORT. Laws of the pseudocode primitives of 00_scope.md R11: each primitive's meaning said once, so that no later
proof unfolds it. Bit `j` of `n` is written `n / 2 ^ j % 2`. -/

namespace Sys2Proof.Machine

@[simp] theorem pow2_eq (n : Nat) : pow2 n = 2 ^ n := by simp [pow2]

theorem two_pow_pos (n : Nat) : (0 : Int) < 2 ^ n := by positivity

theorem two_pow_succ (n : Nat) : (2 : Int) ^ (n + 1) = 2 * 2 ^ n := by ring

theorem two_pow_mono {m n : Nat} (h : m ≤ n) : (2 : Int) ^ m ≤ 2 ^ n := pow_le_pow_right₀ (by norm_num) h

theorem shr_eq (x : Int) (r : Nat) : shr x r = x / 2 ^ r := by simp [shr]

theorem shl_eq (x : Int) (g : Nat) : shl x g = x * 2 ^ g := by simp [shl]

theorem bit_eq (n : Int) (i : Nat) : bit n i = n / 2 ^ i % 2 := by simp [bit]

theorem slice_eq (n : Int) (h l : Nat) : slice n h l = n / 2 ^ l % 2 ^ (h - l + 1) := by simp [slice]

/-- `bitlen(n)` is the least `k` with `n < 2^k` (R11). -/
theorem bitlen_le_iff {n : Int} (hn : 0 ≤ n) (k : Nat) : bitlen n ≤ k ↔ n < 2 ^ k := by
  obtain ⟨m, rfl⟩ := Int.eq_ofNat_of_zero_le hn
  rcases Nat.eq_zero_or_pos m with rfl | hm
  · simp [bitlen]
  · have h0 : ¬ ((m : Int) ≤ 0) := by omega
    have : bitlen (m : Int) = Nat.log2 m + 1 := by rw [bitlen, if_neg h0, Int.toNat_natCast]
    rw [this, Nat.succ_le_iff, Nat.log2_lt (by omega)]
    exact_mod_cast Iff.rfl

theorem bitlen_eq_iff {n : Int} (hn : 0 ≤ n) {k : Nat} (hk : 1 ≤ k) :
    bitlen n = k ↔ n < 2 ^ k ∧ 2 ^ (k - 1) ≤ n := by
  have h1 := bitlen_le_iff hn k
  have h2 := bitlen_le_iff hn (k - 1)
  constructor
  · intro h
    exact ⟨h1.1 (by omega), not_lt.1 fun h' => by have := h2.2 h'; omega⟩
  · rintro ⟨ha, hb⟩
    have := h1.2 ha
    have := mt h2.1 (not_lt.2 hb)
    omega

/-! ## Bits of a non-negative integer -/

/-- A bit of a natural number, as `Nat.testBit`. -/
theorem bit_natCast (n j : Nat) : (n : Int) / 2 ^ j % 2 = if n.testBit j then 1 else 0 := by
  have h : (n : Int) / 2 ^ j % 2 = ((n / 2 ^ j % 2 : Nat) : Int) := by push_cast; rfl
  rw [h, Nat.testBit_eq_decide_div_mod_eq]
  rcases Nat.mod_two_eq_zero_or_one (n / 2 ^ j) with h0 | h0 <;> simp [h0]

theorem bit_zero_or_one (n : Int) (j : Nat) : n / 2 ^ j % 2 = 0 ∨ n / 2 ^ j % 2 = 1 := by omega

/-- Two non-negative integers with the same bits are equal. -/
theorem eq_of_bits {m n : Int} (hm : 0 ≤ m) (hn : 0 ≤ n) (h : ∀ j : Nat, m / 2 ^ j % 2 = n / 2 ^ j % 2) : m = n := by
  obtain ⟨a, rfl⟩ := Int.eq_ofNat_of_zero_le hm
  obtain ⟨b, rfl⟩ := Int.eq_ofNat_of_zero_le hn
  congr 1
  refine Nat.eq_of_testBit_eq fun j => ?_
  have := h j
  rw [bit_natCast, bit_natCast] at this
  revert this
  cases a.testBit j <;> cases b.testBit j <;> simp

/-- An upper part over a lower part of `l` bits. -/
theorem bit_join {a b : Int} (ha : 0 ≤ a) (hb : 0 ≤ b) {l : Nat} (hl : b < 2 ^ l) (j : Nat) :
    (2 ^ l * a + b) / 2 ^ j % 2 = if j < l then b / 2 ^ j % 2 else a / 2 ^ (j - l) % 2 := by
  obtain ⟨m, rfl⟩ := Int.eq_ofNat_of_zero_le ha
  obtain ⟨n, rfl⟩ := Int.eq_ofNat_of_zero_le hb
  have hn : n < 2 ^ l := by exact_mod_cast hl
  have e : (2 ^ l * (m : Int) + n) = ((2 ^ l * m + n : Nat) : Int) := by push_cast; rfl
  rw [e, bit_natCast, Nat.testBit_two_pow_mul_add m hn]
  split <;> rw [bit_natCast]

/-- `n` cut at bit `l`. -/
theorem cut_at (n : Int) (l : Nat) : n = 2 ^ l * (n / 2 ^ l) + n % 2 ^ l := (Int.mul_ediv_add_emod n (2 ^ l)).symm

theorem emod_pow_bounds (n : Int) (l : Nat) : 0 ≤ n % 2 ^ l ∧ n % 2 ^ l < 2 ^ l :=
  ⟨Int.emod_nonneg _ (two_pow_pos l).ne', Int.emod_lt_of_pos _ (two_pow_pos l)⟩

theorem ediv_pow_lt {n : Int} {k w : Nat} (h : n < 2 ^ (k + w)) : n / 2 ^ k < 2 ^ w :=
  Int.ediv_lt_of_lt_mul (two_pow_pos k) (by rw [mul_comm, ← pow_add]; exact h)

theorem join_lt {a b : Int} {u l : Nat} (ha : a < 2 ^ u) (hb : b < 2 ^ l) : 2 ^ l * a + b < 2 ^ (l + u) := by
  rw [pow_add]
  nlinarith [two_pow_pos l]

/-! ## Slices and writes -/

/-- A container's data with the range replaced: the bits above, the new bits, the bits below (R11). -/
theorem setbits_eq {n x : Int} {h l : Nat} :
    setbits n h l x = 2 ^ l * (2 ^ (h - l + 1) * (n / 2 ^ l / 2 ^ (h - l + 1)) + x) + n % 2 ^ l := by
  have h1 := cut_at n l
  have h2 := cut_at (n / 2 ^ l) (h - l + 1)
  simp only [setbits, slice_eq, pow2_eq]
  linear_combination h1 + (2 : Int) ^ l * h2

theorem setbits_nonneg {n x : Int} (hn : 0 ≤ n) (hx : 0 ≤ x) (h l : Nat) : 0 ≤ setbits n h l x := by
  rw [setbits_eq]
  have h1 : 0 ≤ n / 2 ^ l / 2 ^ (h - l + 1) := by positivity
  have h2 := (emod_pow_bounds n l).1
  positivity

/-- Each bit after a write: the new value's inside the range, the old outside (R11, R63). -/
theorem bit_setbits {n x : Int} (hn : 0 ≤ n) {h l : Nat} (hl : l ≤ h) (hx : 0 ≤ x) (hx' : x < 2 ^ (h - l + 1)) (j : Nat) :
    setbits n h l x / 2 ^ j % 2 = if l ≤ j ∧ j ≤ h then x / 2 ^ (j - l) % 2 else n / 2 ^ j % 2 := by
  have hA : 0 ≤ n / 2 ^ l := by positivity
  have hB : 0 ≤ n / 2 ^ l / 2 ^ (h - l + 1) := by positivity
  obtain ⟨m1, m2⟩ := emod_pow_bounds n l
  obtain ⟨k1, k2⟩ := emod_pow_bounds (n / 2 ^ l) (h - l + 1)
  rw [setbits_eq, bit_join (by positivity) m1 m2, bit_join hB hx hx']
  conv_rhs => rw [cut_at n l, bit_join hA m1 m2, cut_at (n / 2 ^ l) (h - l + 1), bit_join hB k1 k2]
  by_cases c1 : j < l
  · simp [c1, show ¬ l ≤ j by omega]
  · by_cases c2 : j - l < h - l + 1
    · simp [c1, c2, show l ≤ j by omega, show j ≤ h by omega]
    · simp [c1, c2, show ¬ j ≤ h by omega]

/-- A write inside the width leaves the data within the width. -/
theorem setbits_lt {n x : Int} {h l w : Nat} (hn' : n < 2 ^ w) (hl : l ≤ h) (hw : h < w)
    (hx' : x < 2 ^ (h - l + 1)) : setbits n h l x < 2 ^ w := by
  obtain ⟨m1, m2⟩ := emod_pow_bounds n l
  have hw' : w = l + ((h - l + 1) + (w - h - 1)) := by omega
  have hA : n / 2 ^ l / 2 ^ (h - l + 1) < 2 ^ (w - h - 1) :=
    ediv_pow_lt (ediv_pow_lt (by rw [← hw']; exact hn'))
  rw [setbits_eq, hw']
  exact join_lt (join_lt hA hx') m2

/-- The written range reads back as the value (R63). -/
theorem slice_setbits {n x : Int} {h l : Nat} (hx : 0 ≤ x) (hx' : x < 2 ^ (h - l + 1)) :
    slice (setbits n h l x) h l = x := by
  obtain ⟨m1, m2⟩ := emod_pow_bounds n l
  rw [slice_eq, setbits_eq, Int.mul_add_ediv_left _ _ (two_pow_pos l).ne', Int.ediv_eq_zero_of_lt m1 m2, add_zero,
    Int.mul_add_emod_self_left, Int.emod_eq_of_lt hx hx']

theorem slice_nonneg (n : Int) (h l : Nat) : 0 ≤ slice n h l := by
  rw [slice_eq]
  exact (emod_pow_bounds _ _).1

/-! ## Bits in reverse order (R64) -/

/-- The number whose bits, from the highest of `w` down, are `f 0, f 1, ...`. -/
theorem reverse_sum_succ (f : Nat → Int) (w : Nat) :
    ((List.range (w + 1)).map fun i => f i * 2 ^ (w + 1 - 1 - i)).sum =
      2 * ((List.range w).map fun i => f i * 2 ^ (w - 1 - i)).sum + f w := by
  rw [List.range_succ, List.map_append, List.sum_append, ← List.sum_map_mul_left]
  congr 1
  · congr 1
    refine List.map_congr_left fun i hi => ?_
    have : w + 1 - 1 - i = (w - 1 - i) + 1 := by have := List.mem_range.1 hi; omega
    rw [this]
    ring
  · simp

theorem reverse_sum_spec (f : Nat → Int) (hf : ∀ i, f i = 0 ∨ f i = 1) (w : Nat) :
    0 ≤ ((List.range w).map fun i => f i * 2 ^ (w - 1 - i)).sum ∧
    ((List.range w).map fun i => f i * 2 ^ (w - 1 - i)).sum < 2 ^ w ∧
    ∀ j < w, ((List.range w).map fun i => f i * 2 ^ (w - 1 - i)).sum / 2 ^ j % 2 = f (w - 1 - j) := by
  induction w with
  | zero => simp
  | succ w ih =>
    obtain ⟨h1, h2, h3⟩ := ih
    rw [reverse_sum_succ]
    have hb := hf w
    refine ⟨by omega, by rw [two_pow_succ]; omega, fun j hj => ?_⟩
    have e := bit_join h1 (b := f w) (by omega) (l := 1) (by norm_num; omega) j
    rw [pow_one] at e
    rw [e]
    cases j with
    | zero => rcases hb with h | h <;> simp [h]
    | succ j =>
      have : w - (j + 1) = w - 1 - j := by omega
      simp [h3 j (by omega), this]

/-! ## Sign reinterpretation (R51) -/

/-- The two's-complement reading of the low `n + 1` bits is in range and congruent to the value. -/
theorem sext_emod_spec (v : Int) (n : Nat) :
    -2 ^ n ≤ sext (n + 1) (v % 2 ^ (n + 1)) ∧ sext (n + 1) (v % 2 ^ (n + 1)) < 2 ^ n ∧
      (2 : Int) ^ (n + 1) ∣ v - sext (n + 1) (v % 2 ^ (n + 1)) := by
  obtain ⟨h1, h2⟩ := emod_pow_bounds v (n + 1)
  have e := cut_at v (n + 1)
  have p := two_pow_succ n
  simp only [sext, pow2_eq, Nat.add_sub_cancel]
  split
  · exact ⟨by omega, by omega, v / 2 ^ (n + 1) + 1, by linear_combination e⟩
  · exact ⟨by omega, by omega, v / 2 ^ (n + 1), by linear_combination e⟩

/-- Of two congruent integers in the same range of `2^(n+1)` there is one only. -/
theorem eq_of_congruent {x y : Int} {n : Nat} (hx : -2 ^ n ≤ x) (hx' : x < 2 ^ n) (hy : -2 ^ n ≤ y) (hy' : y < 2 ^ n)
    (h : (2 : Int) ^ (n + 1) ∣ x - y) : x = y := by
  obtain ⟨k, hk⟩ := h
  have p := two_pow_succ n
  have q := two_pow_pos n
  rw [p] at hk
  have hk0 : k = 0 := by
    by_contra hne
    rcases lt_or_gt_of_ne hne with hlt | hgt
    · nlinarith
    · nlinarith
  subst hk0
  omega

end Sys2Proof.Machine
end

