-- ==== Sys2Proof/Laws/Decode.lean ====
section
/-! SUPPORT. A word that fits a row is the row's pattern and the bits its mask leaves free: what a proof that decoding
drops no bit goes through. -/

namespace Sys2Proof

/-- A word under a mask splits into the pattern and the unmasked bits. -/
theorem word_eq_pattern_or_free {w m p : Word} (h : w &&& m = p) : w = p ||| (w &&& ~~~m) := by
  subst h
  ext i hi
  simp only [BitVec.getElem_or, BitVec.getElem_and, BitVec.getElem_not]
  cases w[i] <;> cases m[i] <;> rfl

/-- The same with the free bits named one by one: `ns` lists the places the mask leaves free. -/
theorem word_eq_pattern_or_bits {w m p : Word} (ns : List Nat) (h : w &&& m = p)
    (hm : ~~~m = ns.foldr (fun n x => BitVec.twoPow 32 n ||| x) 0#32) :
    w = p ||| ns.foldr (fun n x => (if w.getLsbD n then BitVec.twoPow 32 n else 0#32) ||| x) 0#32 := by
  have h1 := word_eq_pattern_or_free h
  rw [hm] at h1
  have key : ∀ l : List Nat, w &&& l.foldr (fun n x => BitVec.twoPow 32 n ||| x) 0#32 =
      l.foldr (fun n x => (if w.getLsbD n then BitVec.twoPow 32 n else 0#32) ||| x) 0#32 := by
    intro l
    induction l with
    | nil => simp
    | cons n l ih => simp only [List.foldr_cons, BitVec.and_or_distrib_left, ih, BitVec.and_twoPow]
  rwa [key ns] at h1

end Sys2Proof
end

