-- ==== Sys2Proof/Laws/State.lean ====
section
/-! SUPPORT. One lemma per field of State per operation that makes a state: what `deliver`, `raiseError`, `receive`,
`takeReset`, `withProgram` and `placeWord` leave in it. -/

namespace Sys2Proof.Machine

variable (s : State) (r : Response) (e : Status) (lines : List Line) (n w : Nat)

@[simp] theorem State.deliver_ports : (s.deliver r).ports = s.ports := rfl
@[simp] theorem State.deliver_inFlight : (s.deliver r).inFlight = none := rfl
@[simp] theorem State.deliver_response : (s.deliver r).response = some r := rfl
@[simp] theorem State.deliver_vars : (s.deliver r).vars = s.vars := rfl
@[simp] theorem State.deliver_program : (s.deliver r).program = s.program := rfl
@[simp] theorem State.deliver_pos : (s.deliver r).pos = s.pos := rfl
@[simp] theorem State.deliver_statuses : (s.deliver r).statuses = s.statuses := rfl
@[simp] theorem State.deliver_shared : (s.deliver r).shared = s.shared := rfl
@[simp] theorem State.deliver_resetAsserted : (s.deliver r).resetAsserted = s.resetAsserted := rfl

@[simp] theorem State.deliver_outputPort : (s.deliver r).outputPort = r := rfl
@[simp] theorem State.deliver_destination : (s.deliver r).destination = s.destination := rfl

@[simp] theorem State.raiseError_eq : s.raiseError e = s.deliver (.raise e) := rfl

@[simp] theorem Response.ret_status (p : Payload) : (Response.ret p).status = .ok := rfl
@[simp] theorem Response.ret_payload (p : Payload) : (Response.ret p).payload = some p := rfl
@[simp] theorem Response.raise_status : (Response.raise e).status = e := rfl
@[simp] theorem Response.raise_payload : (Response.raise e).payload = none := rfl

/-- Receiving a delivered response, whole. -/
theorem receive_deliver : receive (s.deliver r) =
    { s with
      inFlight := none
      response := some r
      statuses := s.statuses ++ [r.status]
      vars := writeBack s.destination r s.vars
      pos := s.pos + 1 } := rfl

@[simp] theorem receive_ports : (receive s).ports = s.ports := by unfold receive; split <;> rfl
@[simp] theorem receive_inFlight : (receive s).inFlight = s.inFlight := by unfold receive; split <;> rfl
@[simp] theorem receive_response : (receive s).response = s.response := by
  unfold receive
  split <;> simp_all
@[simp] theorem receive_program : (receive s).program = s.program := by unfold receive; split <;> rfl
@[simp] theorem receive_shared : (receive s).shared = s.shared := by unfold receive; split <;> rfl
@[simp] theorem receive_resetAsserted : (receive s).resetAsserted = s.resetAsserted := by unfold receive; split <;> rfl

@[simp] theorem takeReset_ports : (takeReset s).ports = s.ports := rfl
@[simp] theorem takeReset_inFlight : (takeReset s).inFlight = none := rfl
@[simp] theorem takeReset_response : (takeReset s).response = none := rfl
@[simp] theorem takeReset_vars : (takeReset s).vars = [] := rfl
@[simp] theorem takeReset_program : (takeReset s).program = s.program := rfl
@[simp] theorem takeReset_pos : (takeReset s).pos = 0 := rfl
@[simp] theorem takeReset_statuses : (takeReset s).statuses = [] := rfl
@[simp] theorem takeReset_shared : (takeReset s).shared = s.shared := rfl
@[simp] theorem takeReset_resetAsserted : (takeReset s).resetAsserted = false := rfl

@[simp] theorem State.withProgram_program : (s.withProgram lines).program = lines := rfl
@[simp] theorem State.withProgram_pos : (s.withProgram lines).pos = 0 := rfl
@[simp] theorem State.withProgram_statuses : (s.withProgram lines).statuses = [] := rfl

@[simp] theorem placeWord_inFlight :
    (placeWord s n w).inFlight = some (requestWithWord s (BitVec.ofNat 32 (w % 2 ^ n))) := rfl
@[simp] theorem placeWord_vars : (placeWord s n w).vars = s.vars := rfl
@[simp] theorem placeWord_program : (placeWord s n w).program = s.program := rfl
@[simp] theorem placeWord_resetAsserted : (placeWord s n w).resetAsserted = false := rfl

end Sys2Proof.Machine
end

