-- ==== Sys2Proof/Laws/Exec.lean ====
section
/-! SUPPORT. What an instruction can do, said once: `exec` is `answer` with the slots and the rule of the instruction, and
`answer` ends in one of four ways. Later proofs cite these and do not unfold `exec`. -/

namespace Sys2Proof.Machine

/-- The rule of each instruction (40_clipper.md to 46_concatenator.md): the response to a request. -/
def ruleOf : Instr → Request → Response
  | .clip sym => fun q => .ret (.int (clipValue sym q.a q.b))
  | .wrap => fun q => .ret (.int (wrapValue q.a q.b))
  | .round dir clp => roundRule dir clp
  | .uround dir clp => uroundRule dir clp
  | .trunc sym => fun q => .ret (.int (truncValue sym q.a q.b))
  | .requant dir rlsb cmsb => requantRule dir rlsb cmsb
  | .bfNew womit => bfNewRule womit
  | .bfGetbit => bfGetbitRule
  | .bfGet => bfGetRule
  | .bfSetbit => bfSetbitRule
  | .bfSet => bfSetRule
  | .bfRev => fun q => checked q.ca (.ret (.int (reversed q.ca)))
  | .bfOnes => fun q => checked q.ca (.ret (.list (positions q.ca 1)))
  | .bfZeros => fun q => checked q.ca (.ret (.list (positions q.ca 0)))
  | .invtop => invtopRule
  | .svNew sw womit => svNewRule sw womit
  | .svGet sw => svGetRule sw
  | .svGetr sw => svGetrRule sw
  | .svSet sw => svSetRule sw
  | .svSetr sw => svSetrRule sw
  | .bfCat => bfCatRule

theorem exec_eq_answer (i : Instr) (s : State) : exec i s = answer (slotUse i) (ruleOf i) s := by cases i <;> rfl

theorem answer_noRequest {u : SlotUse} {rule : Request → Response} {s : State} (h : s.inFlight = none) :
    answer u rule s = .fault .noRequestInFlight := by simp [answer, h]

theorem answer_fits {u : SlotUse} {rule : Request → Response} {s : State} {q : Request} (h : s.inFlight = some q)
    (ho : operandsFit s.ports u q = true) (hp : payloadFits s.ports (rule q) = true) :
    answer u rule s = .next (s.deliver (rule q)) := by simp [answer, h, ho, hp]

theorem answer_operandOutside {u : SlotUse} {rule : Request → Response} {s : State} {q : Request}
    (h : s.inFlight = some q) (ho : operandsFit s.ports u q = false) :
    answer u rule s = .refused .operandOutsidePort := by simp [answer, h, ho]

theorem answer_payloadOutside {u : SlotUse} {rule : Request → Response} {s : State} {q : Request}
    (h : s.inFlight = some q) (ho : operandsFit s.ports u q = true) (hp : payloadFits s.ports (rule q) = false) :
    answer u rule s = .refused .payloadOutsidePort := by simp [answer, h, ho, hp]

/-- If `answer` answers a next state, a request was in flight, all fitted, and the rule's response is delivered. -/
theorem answer_next {u : SlotUse} {rule : Request → Response} {s t : State} (h : answer u rule s = .next t) :
    ∃ q, s.inFlight = some q ∧ operandsFit s.ports u q = true ∧ payloadFits s.ports (rule q) = true ∧
      t = s.deliver (rule q) := by
  unfold answer at h
  split at h
  · cases h
  · next q hq =>
    split at h
    · next ho =>
      split at h
      · next hp => cases h; exact ⟨q, hq, ho, hp, rfl⟩
      · cases h
    · cases h

theorem exec_next {i : Instr} {s t : State} (h : exec i s = .next t) :
    ∃ q, s.inFlight = some q ∧ operandsFit s.ports (slotUse i) q = true ∧ payloadFits s.ports (ruleOf i q) = true ∧
      t = s.deliver (ruleOf i q) := answer_next (exec_eq_answer i s ▸ h)

/-- An instruction answers `r` exactly when a request is in flight, all fits, and `r` is its rule's response. -/
theorem answers_iff {i : Instr} {s : State} {r : Response} :
    Answers i s r ↔ ∃ q, s.inFlight = some q ∧ operandsFit s.ports (slotUse i) q = true ∧
      payloadFits s.ports r = true ∧ r = ruleOf i q := by
  constructor
  · intro h
    obtain ⟨q, hq, ho, hp, ht⟩ := exec_next h
    have hr : r = ruleOf i q := by simpa [State.deliver] using congrArg State.response ht
    exact ⟨q, hq, ho, hr ▸ hp, hr⟩
  · rintro ⟨q, hq, ho, hp, rfl⟩
    rw [Answers, exec_eq_answer, answer_fits hq ho hp]
    rfl

theorem answers_of_rule {i : Instr} {s : State} {q : Request} {r : Response} (hq : s.inFlight = some q)
    (ho : operandsFit s.ports (slotUse i) q = true) (hp : payloadFits s.ports r = true) (hr : ruleOf i q = r) :
    Answers i s r := answers_iff.2 ⟨q, hq, ho, hp, hr.symm⟩

/-! ## The ports -/

@[simp] theorem intFits_reference (x : Int) : intFits Config.reference x = true := rfl
@[simp] theorem contFits_reference (c : Container) : contFits Config.reference c = true := rfl
@[simp] theorem operandsFit_reference (u : SlotUse) (q : Request) : operandsFit Config.reference u q = true := by
  simp [operandsFit]
@[simp] theorem payloadFits_reference (r : Response) : payloadFits Config.reference r = true := by
  unfold payloadFits
  split <;> rfl
@[simp] theorem payloadFits_raise (p : Config.Ports) (e : Status) : payloadFits p (.raise e) = true := rfl
@[simp] theorem payloadFits_int (p : Config.Ports) (v : Int) : payloadFits p (.ret (.int v)) = intFits p v := rfl
@[simp] theorem payloadFits_cont (p : Config.Ports) (c : Container) : payloadFits p (.ret (.cont c)) = contFits p c := rfl
@[simp] theorem payloadFits_list (p : Config.Ports) (l : List Nat) : payloadFits p (.ret (.list l)) = true := rfl

theorem intFits_iff (p : Config.Ports) (x : Int) :
    intFits p x = true ↔ ∀ w, p.dataW = some w → 1 ≤ w ∧ -2 ^ (w - 1) ≤ x ∧ x < 2 ^ (w - 1) := by
  unfold intFits
  split <;> simp_all

/-- What lies between two integers a port carries, it carries. -/
theorem intFits_between {p : Config.Ports} {x y z : Int} (hx : intFits p x = true) (hz : intFits p z = true)
    (h1 : x ≤ y) (h2 : y ≤ z) : intFits p y = true := by
  rw [intFits_iff] at *
  intro w hw
  have := hx w hw
  have := hz w hw
  omega

/-- A port that carries any integer carries 0. -/
theorem intFits_zero {p : Config.Ports} {x : Int} (hx : intFits p x = true) : intFits p 0 = true := by
  rw [intFits_iff] at *
  intro w hw
  have := hx w hw
  have := two_pow_pos (w - 1)
  omega

/-- The range of a port is symmetric about -1/2: one that carries `x` carries `-x - 1`. -/
theorem intFits_complement {p : Config.Ports} {x : Int} (hx : intFits p x = true) : intFits p (-x - 1) = true := by
  rw [intFits_iff] at *
  intro w hw
  have := hx w hw
  omega

/-- A container no wider than one the ports carry, and well-formed, is carried. -/
theorem contFits_of_width {p : Config.Ports} {c : Container} {d : Int} (hc : contFits p c = true)
    (hw : 1 ≤ c.width) (hd : d < 2 ^ c.width.toNat) : contFits p ⟨d, c.width⟩ = true := by
  unfold contFits at *
  split at hc
  · rfl
  · next m hm =>
    simp only [decide_eq_true_eq, pow2_eq] at *
    refine ⟨hc.1, lt_of_lt_of_le hd (two_pow_mono ?_)⟩
    omega

/-! ## The container check (R58) -/

theorem contOk_iff (c : Container) : contOk c = true ↔ c.wf := by simp [contOk]

theorem checked_wf {c : Container} (h : c.wf) (r : Response) : checked c r = r := by
  rw [checked, if_pos ((contOk_iff c).2 h)]

theorem checked_illFormed {c : Container} (h : ¬ c.wf) (r : Response) : checked c r = .raise .rangeError := by
  rw [checked, if_neg (mt (contOk_iff c).1 h)]

/-- The value a range write stores (R63): it fits, or the write is an error. -/
theorem writtenValue_error {n : Nat} {x : Int} (h : x < -1 ∨ 2 ^ n ≤ x) : writtenValue n x = none := by
  have := two_pow_pos n
  simp only [writtenValue, pow2_eq]
  rw [if_neg (by omega), if_pos (by omega)]

theorem writtenValue_sentinel (n : Nat) : writtenValue n (-1) = some (2 ^ n - 1) := by simp [writtenValue]

theorem writtenValue_fits {n : Nat} {x : Int} (h : 0 ≤ x) (h' : x < 2 ^ n) : writtenValue n x = some x := by
  simp only [writtenValue, pow2_eq]
  rw [if_neg (by omega), if_neg (by omega)]

end Sys2Proof.Machine
end

