-- ==== Sys2Proof/Laws/PerInstr.lean ====
section
/-! SUPPORT. A family of lemmas, one for each constructor of Instr: the instruction's command word fits the opcode map's
row of the instruction (30_encoding.md R42, R44). -/

namespace Sys2Proof.Laws.RowFits

/-- The position of each instruction's row in the opcode map of R42. -/
def rowOf : Instr → Nat
  | .clip _ => 0
  | .wrap => 1
  | .round _ _ => 2
  | .uround _ _ => 3
  | .trunc _ => 4
  | .requant _ _ _ => 5
  | .bfNew _ => 6
  | .bfGetbit => 7
  | .bfGet => 8
  | .bfSetbit => 9
  | .bfSet => 10
  | .bfRev => 11
  | .bfOnes => 12
  | .bfZeros => 13
  | .invtop => 14
  | .svNew _ _ => 15
  | .svGet _ => 16
  | .svGetr _ => 17
  | .svSet _ => 18
  | .svSetr _ => 19
  | .bfCat => 20

/-- The instruction's word fits its row, and the row reads the instruction back from it. -/
def Statement (i : Instr) : Prop :=
  ∃ r, opcodeTable[rowOf i]? = some r ∧ r.fits (encode i) = true ∧ r.build (encode i) = i

theorem clip (sym : Bool) : Statement (.clip sym) := by cases sym <;> exact ⟨_, rfl, rfl, rfl⟩
theorem wrap : Statement .wrap := ⟨_, rfl, rfl, rfl⟩
theorem round (dir : Dir) (clp : Bool) : Statement (.round dir clp) := by
  cases dir <;> cases clp <;> exact ⟨_, rfl, rfl, rfl⟩
theorem uround (dir : Dir) (clp : Bool) : Statement (.uround dir clp) := by
  cases dir <;> cases clp <;> exact ⟨_, rfl, rfl, rfl⟩
theorem trunc (sym : Bool) : Statement (.trunc sym) := by cases sym <;> exact ⟨_, rfl, rfl, rfl⟩
theorem requant (dir : Dir) (rlsb cmsb : Bool) : Statement (.requant dir rlsb cmsb) := by
  cases dir <;> cases rlsb <;> cases cmsb <;> exact ⟨_, rfl, rfl, rfl⟩
theorem bfNew (womit : Bool) : Statement (.bfNew womit) := by cases womit <;> exact ⟨_, rfl, rfl, rfl⟩
theorem bfGetbit : Statement .bfGetbit := ⟨_, rfl, rfl, rfl⟩
theorem bfGet : Statement .bfGet := ⟨_, rfl, rfl, rfl⟩
theorem bfSetbit : Statement .bfSetbit := ⟨_, rfl, rfl, rfl⟩
theorem bfSet : Statement .bfSet := ⟨_, rfl, rfl, rfl⟩
theorem bfRev : Statement .bfRev := ⟨_, rfl, rfl, rfl⟩
theorem bfOnes : Statement .bfOnes := ⟨_, rfl, rfl, rfl⟩
theorem bfZeros : Statement .bfZeros := ⟨_, rfl, rfl, rfl⟩
theorem invtop : Statement .invtop := ⟨_, rfl, rfl, rfl⟩
theorem svNew (sw : SymWidth) (womit : Bool) : Statement (.svNew sw womit) := by
  cases sw <;> cases womit <;> exact ⟨_, rfl, rfl, rfl⟩
theorem svGet (sw : SymWidth) : Statement (.svGet sw) := by cases sw <;> exact ⟨_, rfl, rfl, rfl⟩
theorem svGetr (sw : SymWidth) : Statement (.svGetr sw) := by cases sw <;> exact ⟨_, rfl, rfl, rfl⟩
theorem svSet (sw : SymWidth) : Statement (.svSet sw) := by cases sw <;> exact ⟨_, rfl, rfl, rfl⟩
theorem svSetr (sw : SymWidth) : Statement (.svSetr sw) := by cases sw <;> exact ⟨_, rfl, rfl, rfl⟩
theorem bfCat : Statement .bfCat := ⟨_, rfl, rfl, rfl⟩

end Sys2Proof.Laws.RowFits
end

