-- ==== Sys2Proof/Laws/Rules.lean ====
section
/-! SUPPORT. What the shared rules compute, and when the slots an operation reads fit: the lemmas that proofs about results
cite and do not unfold. -/

namespace Sys2Proof.Machine

/-! ## Which slots fit -/

section fits
variable {p : Config.Ports} {q : Request}

theorem operandsFit_ab (ha : intFits p q.a = true) (hb : intFits p q.b = true) : operandsFit p ⟨0, 2⟩ q = true := by
  simp [operandsFit, Request.contsRead, Request.intsRead, ha, hb]

/-- The slots of `round` and `uround`. -/
theorem operandsFit_clamped {clp : Bool} (ha : intFits p q.a = true) (hb : intFits p q.b = true)
    (hc : clp = true → intFits p q.c = true) : operandsFit p ⟨0, if clp then 3 else 2⟩ q = true := by
  cases clp <;> simp_all [operandsFit, Request.contsRead, Request.intsRead]

theorem operandsFit_abcde (ha : intFits p q.a = true) (hb : intFits p q.b = true) (hc : intFits p q.c = true)
    (hd : intFits p q.d = true) (he : intFits p q.e = true) : operandsFit p ⟨0, 5⟩ q = true := by
  simp_all [operandsFit, Request.contsRead, Request.intsRead]

/-- The slots of `bf.new` and `sv.new`. -/
theorem operandsFit_new {womit : Bool} (ha : intFits p q.a = true) (hb : womit = false → intFits p q.b = true) :
    operandsFit p ⟨0, if womit then 1 else 2⟩ q = true := by
  cases womit <;> simp_all [operandsFit, Request.contsRead, Request.intsRead]

theorem operandsFit_cont (hc : contFits p q.ca = true) : operandsFit p ⟨1, 0⟩ q = true := by
  simp_all [operandsFit, Request.contsRead, Request.intsRead]

theorem operandsFit_cont_a (hc : contFits p q.ca = true) (ha : intFits p q.a = true) :
    operandsFit p ⟨1, 1⟩ q = true := by
  simp_all [operandsFit, Request.contsRead, Request.intsRead]

theorem operandsFit_cont_ab (hc : contFits p q.ca = true) (ha : intFits p q.a = true) (hb : intFits p q.b = true) :
    operandsFit p ⟨1, 2⟩ q = true := by
  simp_all [operandsFit, Request.contsRead, Request.intsRead]

theorem operandsFit_cont_abc (hc : contFits p q.ca = true) (ha : intFits p q.a = true) (hb : intFits p q.b = true)
    (hx : intFits p q.c = true) : operandsFit p ⟨1, 3⟩ q = true := by
  simp_all [operandsFit, Request.contsRead, Request.intsRead]

end fits

/-! ## Answers -/

/-- An instruction has one answer at a state. -/
theorem answers_unique {i : Instr} {s : State} {r r' : Response} (h : Answers i s r) (h' : Answers i s r') : r = r' := by
  obtain ⟨q, hq, _, _, h⟩ := answers_iff.1 h
  obtain ⟨q', hq', _, _, h'⟩ := answers_iff.1 h'
  rw [hq] at hq'
  cases hq'
  rw [h, h']

/-- On the reference instance an instruction answers its rule's response. -/
theorem answers_reference {i : Instr} {s : State} {q : Request} {r : Response} (hq : s.inFlight = some q)
    (hp : s.ports = Config.reference) : Answers i s r ↔ r = ruleOf i q := by
  rw [answers_iff]
  constructor
  · rintro ⟨q', hq', _, _, h⟩
    rw [hq] at hq'
    cases hq'
    exact h
  · intro h
    exact ⟨q, hq, by rw [hp]; simp, by rw [hp]; simp, h⟩

theorem policy_of_named {d : Dir} (h : d ≠ .unsupported) : ∃ t, policy d = some t := by
  cases d <;> first | exact ⟨_, rfl⟩ | exact absurd rfl h

/-! ## wrap and round -/

/-- `wrap` to `n + 1` bits gives the congruent value of the range (R51). -/
theorem wrapValue_spec {v w : Int} {n : Nat} (hn : w = n + 1) :
    -2 ^ n ≤ wrapValue v w ∧ wrapValue v w < 2 ^ n ∧ (2 : Int) ^ (n + 1) ∣ v - wrapValue v w := by
  rw [wrapValue, if_neg (by omega), show w.toNat = n + 1 by omega, pow2_eq]
  exact sext_emod_spec v n

theorem wrapValue_of_inRange {v w : Int} {n : Nat} (hn : w = n + 1) (h : -2 ^ n ≤ v) (h' : v < 2 ^ n) :
    wrapValue v w = v := by
  obtain ⟨h1, h2, h3⟩ := wrapValue_spec (v := v) hn
  exact (eq_of_congruent h h' h1 h2 h3).symm

/-- A port that carries a value carries the value wrapped. -/
theorem intFits_wrapValue {p : Config.Ports} {v w : Int} (h : intFits p v = true) : intFits p (wrapValue v w) = true := by
  rcases le_or_gt w 0 with hw | hw
  · rw [wrapValue, if_pos hw]
    exact intFits_zero h
  · obtain ⟨n, hn⟩ : ∃ n : Nat, w = n + 1 := ⟨(w - 1).toNat, by omega⟩
    obtain ⟨h1, h2, h3⟩ := wrapValue_spec (v := v) hn
    rw [intFits_iff] at *
    intro W hW
    have := h W hW
    by_cases hc : n ≤ W - 1
    · have := two_pow_mono hc
      omega
    · have := two_pow_mono (show W - 1 ≤ n by omega)
      have := eq_of_congruent (x := v) (by omega) (by omega) h1 h2 h3
      omega

/-- The three policies at the half point `2^n` (R53). -/
theorem rnd_eq (v : Int) (n : Nat) :
    rnd v (n + 1) .halfUp = (v + 2 ^ n) / 2 ^ (n + 1) ∧
    rnd v (n + 1) .halfAway = (if 0 ≤ v then (v + 2 ^ n) / 2 ^ (n + 1) else (v + 2 ^ n - 1) / 2 ^ (n + 1)) ∧
    rnd v (n + 1) .halfEven =
      (if v % 2 ^ (n + 1) = 2 ^ n ∧ (v + 2 ^ n) / 2 ^ (n + 1) % 2 = 1 then (v + 2 ^ n) / 2 ^ (n + 1) - 1
      else (v + 2 ^ n) / 2 ^ (n + 1)) := by
  simp [rnd]

/-- Whatever the policy, the result is at most half a step away (R53). -/
theorem rnd_near (v : Int) (n : Nat) (d : TieBreak) : 2 * |2 ^ (n + 1) * rnd v (n + 1) d - v| ≤ 2 ^ (n + 1) := by
  obtain ⟨e1, e2, e3⟩ := rnd_eq v n
  have hp := two_pow_pos n
  have hs := two_pow_succ n
  have c0 := cut_at (v + 2 ^ n) (n + 1)
  obtain ⟨b1, b2⟩ := emod_pow_bounds (v + 2 ^ n) (n + 1)
  have c1 := cut_at (v + 2 ^ n - 1) (n + 1)
  obtain ⟨b3, b4⟩ := emod_pow_bounds (v + 2 ^ n - 1) (n + 1)
  have c2 := cut_at v (n + 1)
  cases d with
  | halfUp => rw [e1, ← abs_two, ← abs_mul, abs_le, abs_two]; constructor <;> linarith
  | halfAway =>
    rw [e2]
    split <;> (rw [← abs_two, ← abs_mul, abs_le, abs_two]; constructor <;> linarith)
  | halfEven =>
    rw [e3]
    split
    · next h =>
      have : (v + 2 ^ n) / 2 ^ (n + 1) = v / 2 ^ (n + 1) + 1 := by
        have : v + 2 ^ n = 2 ^ (n + 1) * (v / 2 ^ (n + 1) + 1) + 0 := by linear_combination c2 + h.1 - hs
        rw [this, add_zero, Int.mul_ediv_cancel_left _ (by positivity)]
      rw [this, ← abs_two, ← abs_mul, abs_le, abs_two]
      have := h.1
      constructor <;> linarith
    · rw [← abs_two, ← abs_mul, abs_le, abs_two]; constructor <;> linarith

/-- Rounding goes towards zero or stays. -/
theorem rnd_between (v : Int) (n : Nat) (d : TieBreak) :
    (0 ≤ v → 0 ≤ rnd v (n + 1) d ∧ rnd v (n + 1) d ≤ v) ∧ (v < 0 → v ≤ rnd v (n + 1) d ∧ rnd v (n + 1) d ≤ 0) := by
  have h := rnd_near v n d
  have hp := two_pow_pos n
  have hs := two_pow_succ n
  set x := rnd v (n + 1) d
  rw [← abs_two, ← abs_mul, abs_le, abs_two] at h
  obtain ⟨h1, h2⟩ := h
  rw [hs] at h1 h2
  refine ⟨fun h0 => ⟨?_, ?_⟩, fun h0 => ⟨?_, ?_⟩⟩
  · by_contra hc; nlinarith
  · by_contra hc
    have : x ≥ v + 1 := by omega
    nlinarith
  · by_contra hc
    have : x ≤ v - 1 := by omega
    nlinarith
  · by_contra hc
    have : x ≥ 1 := by omega
    nlinarith

/-- A port that carries a value carries the value rounded. -/
theorem intFits_rnd {p : Config.Ports} {v : Int} (h : intFits p v = true) (n : Nat) (d : TieBreak) :
    intFits p (rnd v (n + 1) d) = true := by
  obtain ⟨h1, h2⟩ := rnd_between v n d
  rcases le_or_gt 0 v with h0 | h0
  · exact intFits_between (intFits_zero h) h (h1 h0).1 (h1 h0).2
  · exact intFits_between h (intFits_zero h) (h2 h0).1 (h2 h0).2

theorem intFits_min {p : Config.Ports} {v m : Int} (h : intFits p v = true) (hm : 0 ≤ m) :
    intFits p (min v m) = true := by
  rcases le_total v m with h1 | h1
  · rwa [min_eq_left h1]
  · rw [min_eq_right h1]
    exact intFits_between (intFits_zero h) h hm h1

/-! ## Containers -/

/-- Every bit of `2^n - 1` below `n` is 1. -/
theorem bit_ones (k n : Nat) (h : k < n) : ((2 : Int) ^ n - 1) / 2 ^ k % 2 = 1 := by
  have : ((2 : Int) ^ n - 1) = ((2 ^ n - 1 : Nat) : Int) := by
    have := Nat.one_le_two_pow (n := n)
    push_cast [this]
    rfl
  rw [this, bit_natCast]
  simp [Nat.testBit_two_pow_sub_one, h]

/-- The bits at and above a width are 0. -/
theorem bit_above {n : Int} {w : Nat} (h0 : 0 ≤ n) (h : n < 2 ^ w) {j : Nat} (hj : w ≤ j) : n / 2 ^ j % 2 = 0 := by
  rw [Int.ediv_eq_zero_of_lt h0 (lt_of_lt_of_le h (two_pow_mono hj))]
  rfl

/-- A range write that fits: the new container, well-formed, bit by bit (R63, R22). -/
theorem writeRange_spec {c : Container} (hw : c.wf) {h l : Nat} (hl : l ≤ h) (hh : (h : Int) < c.width) {x : Int}
    (hx : -1 ≤ x) (hx' : x < 2 ^ (h - l + 1)) :
    ∃ d, writeRange c h l x = .ret (.cont ⟨d, c.width⟩) ∧ Container.wf ⟨d, c.width⟩ ∧
      ∀ j : Nat, d / 2 ^ j % 2 =
        if l ≤ j ∧ j ≤ h then (if x = -1 then 1 else x / 2 ^ (j - l) % 2) else c.data / 2 ^ j % 2 := by
  obtain ⟨w1, w2, w3⟩ := hw
  have hp := two_pow_pos (h - l + 1)
  obtain ⟨y, hy, h0, h1, hb⟩ : ∃ y, writtenValue (h - l + 1) x = some y ∧ 0 ≤ y ∧ y < 2 ^ (h - l + 1) ∧
      ∀ j, l ≤ j ∧ j ≤ h → y / 2 ^ (j - l) % 2 = if x = -1 then 1 else x / 2 ^ (j - l) % 2 := by
    by_cases hx1 : x = -1
    · subst hx1
      exact ⟨_, writtenValue_sentinel _, by omega, by omega, fun j hj => by
        rw [if_pos rfl]
        exact bit_ones _ _ (by omega)⟩
    · exact ⟨x, writtenValue_fits (by omega) hx', by omega, hx', fun j hj => by rw [if_neg hx1]⟩
  refine ⟨setbits c.data h l y, by simp [writeRange, hy],
    ⟨w1, setbits_nonneg w2 h0 _ _, setbits_lt w3 hl (by simp; omega) h1⟩, fun j => ?_⟩
  rw [bit_setbits w2 hl h0 h1]
  split
  · next hj => exact hb j hj
  · rfl

/-- The reversed data, bit by bit (R64). -/
theorem reversed_spec (c : Container) :
    0 ≤ reversed c ∧ reversed c < 2 ^ c.width.toNat ∧
      ∀ i < c.width.toNat, reversed c / 2 ^ i % 2 = c.data / 2 ^ (c.width.toNat - 1 - i) % 2 := by
  have := reverse_sum_spec (fun i => bit c.data i) (fun i => by rw [bit_eq]; exact bit_zero_or_one _ _) c.width.toNat
  simpa [reversed, bit_eq] using this

theorem mem_positions (c : Container) (b : Int) (i : Nat) :
    i ∈ positions c b ↔ (i : Int) < c.width ∧ c.data / 2 ^ i % 2 = b := by simp [positions, bit_eq]

theorem positions_ascending (c : Container) (b : Int) : (positions c b).Pairwise (· < ·) :=
  List.Pairwise.filter _ List.pairwise_lt_range

/-- A concatenation of well-formed containers is well-formed (R74). -/
theorem concat_wf {c d : Container} (hc : c.wf) (hd : d.wf) :
    Container.wf ⟨concat c.data d.data d.width.toNat, c.width + d.width⟩ := by
  obtain ⟨a1, a2, a3⟩ := hc
  obtain ⟨b1, b2, b3⟩ := hd
  rw [concat, pow2_eq]
  refine ⟨by simp only; omega, by simp only; positivity, ?_⟩
  simp only
  rw [mul_comm, show (c.width + d.width).toNat = d.width.toNat + c.width.toNat by omega]
  exact join_lt a3 b3

/-! ## Symbols (R41, R68) -/

theorem symbolBits_eq (sz : SymWidth) : symbolBits sz = 8 * 2 ^ sz.swBits.toNat := by cases sz <;> rfl

theorem symbolBits_pos (sz : SymWidth) : 0 < symbolBits sz := by cases sz <;> decide

theorem symbolTop_succ {sw : Nat} (hs : 0 < sw) {s : Int} {k : Nat} (h : s = k) :
    symbolTop sw s + 1 = (k + 1) * sw := by
  subst h
  have : ((k : Int) + 1) * sw = (((k + 1) * sw : Nat) : Int) := by push_cast; rfl
  have : 0 < (k + 1) * sw := by positivity
  unfold symbolTop
  omega

theorem symbolBottom_eq {sw : Nat} {s : Int} {k : Nat} (h : s = k) : symbolBottom sw s = k * sw := by
  subst h
  have : (k : Int) * sw = ((k * sw : Nat) : Int) := by push_cast; rfl
  unfold symbolBottom
  omega

/-- How many bits symbols `l` to `h` span. -/
theorem symbol_span {sw : Nat} (hs : 0 < sw) {sh sl : Int} {h l : Nat} (hh : sh = h) (hl : sl = l) (hlh : l ≤ h) :
    symbolTop sw sh - symbolBottom sw sl + 1 = (h - l + 1) * sw ∧ symbolBottom sw sl ≤ symbolTop sw sh := by
  have h1 := symbolTop_succ hs hh
  have h2 := symbolBottom_eq (sw := sw) hl
  obtain ⟨m, rfl⟩ : ∃ m, h = l + m := ⟨h - l, by omega⟩
  have e1 : (l + m + 1) * sw = l * sw + (m + 1) * sw := by ring
  have : 0 < (m + 1) * sw := by positivity
  rw [show l + m - l + 1 = m + 1 by omega]
  omega

end Sys2Proof.Machine
end

