-- ==== Sys2Proof/Laws/Responses.lean ====
section
/-! SUPPORT. What every rule answers, said once: a well-formed payload of the operation's kind, or an error the operation
can raise. -/

namespace Sys2Proof.Machine

/-- The response is OK with a well-formed payload of kind `k`, or one of the errors. -/
def AnswersWithin (k : PayloadKind) (errors : List Status) (r : Response) : Prop :=
  (∃ p, r = .ret p ∧ p.wf ∧ p.kind = k) ∨ ∃ e ∈ errors, e ≠ .ok ∧ r = .raise e

theorem AnswersWithin.wf {k : PayloadKind} {errors : List Status} {r : Response} (h : AnswersWithin k errors r) :
    r.wf := by
  rcases h with ⟨p, rfl, h1, _⟩ | ⟨e, _, hne, rfl⟩
  · exact ⟨by simp, fun p' h => by cases h; exact h1⟩
  · exact ⟨by simp [hne], by simp⟩

theorem within_int {errors : List Status} {v : Int} : AnswersWithin .int errors (.ret (.int v)) :=
  .inl ⟨_, rfl, trivial, rfl⟩

theorem within_cont {errors : List Status} {c : Container} (h : c.wf) : AnswersWithin .cont errors (.ret (.cont c)) :=
  .inl ⟨_, rfl, h, rfl⟩

theorem within_error {k : PayloadKind} {errors : List Status} {e : Status} (h : e ∈ errors) (h' : e ≠ .ok) :
    AnswersWithin k errors (.raise e) := .inr ⟨e, h, h', rfl⟩

theorem within_range {k : PayloadKind} : AnswersWithin k [.rangeError] (.raise .rangeError) :=
  within_error (by simp) (by simp)

theorem within_checked {c : Container} {k : PayloadKind} {r : Response}
    (h : c.wf → AnswersWithin k [.rangeError] r) : AnswersWithin k [.rangeError] (checked c r) := by
  by_cases hw : c.wf
  · rw [checked_wf hw]
    exact h hw
  · rw [checked_illFormed hw]
    exact within_range

theorem within_writeRange {c : Container} (hw : c.wf) {h l : Nat} (hl : l ≤ h) (hh : (h : Int) < c.width) (x : Int) :
    AnswersWithin .cont [.rangeError] (writeRange c h l x) := by
  by_cases hx : x < -1 ∨ 2 ^ (h - l + 1) ≤ x
  · rw [writeRange, writtenValue_error hx]
    exact within_range
  · obtain ⟨d, h1, h2, _⟩ := writeRange_spec hw hl hh (x := x) (by omega) (by omega)
    rw [h1]
    exact within_cont h2

/-- A value is well-formed data of any width from its bit length on (R59, R69). -/
theorem wf_of_bitlen {v w : Int} (h0 : 0 ≤ v) (h1 : 1 ≤ w) (h : (bitlen v : Int) ≤ w) : Container.wf ⟨v, w⟩ :=
  ⟨h1, h0, (bitlen_le_iff h0 _).1 (by simp only; omega)⟩

/-- `k` symbols hold the value when `k` is the fewest (R69). -/
theorem bitlen_le_fewest {sw : Nat} (hs : 0 < sw) (v : Int) :
    bitlen v ≤ sw * fewestSymbols sw v ∧ 0 < sw * fewestSymbols sw v := by
  unfold fewestSymbols
  have h1 := Nat.lt_mul_div_succ (bitlen v + sw - 1) hs
  have e : sw * ((bitlen v + sw - 1) / sw + 1) = sw * ((bitlen v + sw - 1) / sw) + sw := by ring
  have h2 : sw * ((bitlen v + sw - 1) / sw) ≤ sw * max 1 ((bitlen v + sw - 1) / sw) :=
    Nat.mul_le_mul_left _ (le_max_right _ _)
  exact ⟨by omega, Nat.mul_pos hs (by omega)⟩

/-- What each rule answers. -/
theorem rule_within (i : Instr) (q : Request) : AnswersWithin (payloadKind i) (mayRaise i) (ruleOf i q) := by
  cases i with
  | clip sym => exact within_int
  | wrap => exact within_int
  | round dir clp =>
    simp only [ruleOf, roundRule]
    split
    · exact within_error (by simp [mayRaise]) (by simp)
    · exact within_int
  | uround dir clp =>
    simp only [ruleOf, uroundRule]
    split
    · exact within_error (by simp [mayRaise]) (by simp)
    · split
      · exact within_error (by simp [mayRaise]) (by simp)
      · exact within_int
  | trunc sym => exact within_int
  | requant dir rlsb cmsb =>
    simp only [ruleOf, requantRule]
    split
    · exact within_error (by simp [mayRaise]) (by simp)
    · split
      · exact within_error (by simp [mayRaise]) (by simp)
      · exact within_int
  | bfNew womit =>
    simp only [ruleOf, bfNewRule]
    split
    · exact within_error (by simp [mayRaise]) (by simp)
    split
    · exact within_cont (wf_of_bitlen (by omega) (by omega) (by omega))
    split
    · exact within_error (by simp [mayRaise]) (by simp)
    split
    · exact within_error (by simp [mayRaise]) (by simp)
    exact within_cont (wf_of_bitlen (by omega) (by omega) (by omega))
  | bfGetbit =>
    refine within_checked fun _ => ?_
    split
    · exact within_range
    · exact within_int
  | bfGet =>
    refine within_checked fun _ => ?_
    split
    · exact within_range
    split
    · exact within_range
    · exact within_int
  | bfSetbit =>
    refine within_checked fun hw => ?_
    split
    · exact within_range
    split
    · exact within_range
    next h1 h2 =>
    have hx : q.b < 2 ^ (q.a.toNat - q.a.toNat + 1) := by simp; omega
    exact within_cont ⟨hw.1, setbits_nonneg hw.2.1 (by omega) _ _,
      by simpa using setbits_lt hw.2.2 (le_refl _) (show q.a.toNat < q.ca.width.toNat by omega) hx⟩
  | bfSet =>
    refine within_checked fun hw => ?_
    split
    · exact within_range
    split
    · exact within_range
    exact within_writeRange hw (by omega) (by omega) _
  | bfRev => exact within_checked fun _ => within_int
  | bfOnes => exact within_checked fun _ => .inl ⟨_, rfl, positions_ascending _ _, rfl⟩
  | bfZeros => exact within_checked fun _ => .inl ⟨_, rfl, positions_ascending _ _, rfl⟩
  | invtop =>
    simp only [ruleOf, invtopRule]
    split
    · exact within_range
    · exact within_int
  | svNew sw womit =>
    simp only [ruleOf, svNewRule]
    split
    · exact within_error (by simp [mayRaise]) (by simp)
    split
    · obtain ⟨h1, h2⟩ := bitlen_le_fewest (symbolBits_pos sw) q.a
      zify at h1 h2
      exact within_cont (wf_of_bitlen (by omega) (by omega) (by omega))
    split
    · exact within_error (by simp [mayRaise]) (by simp)
    split
    · exact within_error (by simp [mayRaise]) (by simp)
    have hp := symbolBits_pos sw
    have : 0 < (symbolBits sw : Int) * q.b := by apply mul_pos <;> omega
    exact within_cont (wf_of_bitlen (by omega) (by omega) (by omega))
  | svGet sw =>
    refine within_checked fun _ => ?_
    split
    · exact within_range
    · exact within_int
  | svGetr sw =>
    refine within_checked fun _ => ?_
    split
    · exact within_range
    split
    · exact within_range
    · exact within_int
  | svSet sw =>
    refine within_checked fun hw => ?_
    split
    · exact within_range
    have hk : q.a = (q.a.toNat : Int) := by omega
    have t1 := symbolTop_succ (symbolBits_pos sw) hk
    have cast : (((q.a.toNat + 1) * symbolBits sw : Nat) : Int) = (q.a + 1) * symbolBits sw := by push_cast; rw [← hk]
    exact within_writeRange hw (symbol_span (symbolBits_pos sw) hk hk (le_refl _)).2 (by omega) _
  | svSetr sw =>
    refine within_checked fun hw => ?_
    split
    · exact within_range
    split
    · exact within_range
    have hk : q.a = (q.a.toNat : Int) := by omega
    have t1 := symbolTop_succ (symbolBits_pos sw) hk
    have cast : (((q.a.toNat + 1) * symbolBits sw : Nat) : Int) = (q.a + 1) * symbolBits sw := by push_cast; rw [← hk]
    exact within_writeRange hw (symbol_span (symbolBits_pos sw) hk (l := q.b.toNat) (by omega) (by omega)).2 (by omega) _
  | bfCat => exact within_checked fun hc => within_checked fun hd => within_cont (concat_wf hc hd)

end Sys2Proof.Machine
end

