-- ==== Sys2Proof/Laws/Vars.lean ====
section
/-! SUPPORT. Laws of the variable store (10_state.md R21): a read after a write, what a write leaves alone, and that a
write keeps the canonical form. -/

namespace Sys2Proof.Machine

@[simp] theorem lookup_nil (x : VarName) : lookup x [] = none := rfl

theorem lookup_store_same (x : VarName) (p : Payload) (vars : List (VarName × Payload)) :
    lookup x (store x p vars) = some p := by
  induction vars with
  | nil => simp [store, lookup]
  | cons v rest ih =>
    obtain ⟨y, q⟩ := v
    simp only [store]
    split
    · simp [lookup]
    · split
      · simp [lookup]
      · next h1 h2 => simp [lookup, h2, ih]

theorem lookup_store_other {x y : VarName} (h : x ≠ y) (p : Payload) (vars : List (VarName × Payload)) :
    lookup x (store y p vars) = lookup x vars := by
  induction vars with
  | nil => simp [store, lookup, h]
  | cons v rest ih =>
    obtain ⟨z, q⟩ := v
    simp only [store]
    split
    · simp [lookup, h]
    · split
      · next h1 h2 => subst h2; simp [lookup, h]
      · simp [lookup, ih]

theorem mem_store {x : VarName} {p : Payload} {vars : List (VarName × Payload)} {v : VarName × Payload}
    (h : v ∈ store x p vars) : v = (x, p) ∨ v ∈ vars := by
  induction vars with
  | nil => simpa [store] using h
  | cons u rest ih =>
    obtain ⟨y, q⟩ := u
    simp only [store] at h
    split at h
    · simpa using h
    · split at h
      · rcases List.mem_cons.1 h with h | h
        · exact .inl h
        · exact .inr (List.mem_cons_of_mem _ h)
      · rcases List.mem_cons.1 h with h | h
        · exact .inr (by simp [h])
        · exact (ih h).imp id (List.mem_cons_of_mem _)

/-- A write keeps the canonical form. -/
theorem store_keeps_wf {vars : List (VarName × Payload)} (h : VarsWf vars) (x : VarName) (p : Payload) :
    VarsWf (store x p vars) := by
  induction vars with
  | nil => simp [store, VarsWf]
  | cons u rest ih =>
    obtain ⟨y, q⟩ := u
    obtain ⟨h1, h2⟩ := List.pairwise_cons.1 h
    simp only [store]
    split
    · next hlt =>
      refine List.pairwise_cons.2 ⟨fun v hv => ?_, h⟩
      rcases List.mem_cons.1 hv with rfl | hv
      · exact hlt
      · exact lt_trans hlt (h1 v hv)
    · split
      · next hlt heq => subst heq; exact List.pairwise_cons.2 ⟨h1, h2⟩
      · next hlt hne =>
        refine List.pairwise_cons.2 ⟨fun v hv => ?_, ih h2⟩
        rcases mem_store hv with rfl | hv
        · exact lt_of_le_of_ne (not_lt.1 hlt) (Ne.symm hne)
        · exact h1 v hv

/-- The variables after a response is received: the destination of an OK response, and no other. -/
theorem store_values_wf {P : Payload → Prop} {vars : List (VarName × Payload)}
    (h : ∀ x p, lookup x vars = some p → P p) {y : VarName} {q : Payload} (hq : P q) :
    ∀ x p, lookup x (store y q vars) = some p → P p := by
  intro x p hx
  by_cases hxy : x = y
  · subst hxy
    rw [lookup_store_same] at hx
    exact Option.some.inj hx ▸ hq
  · rw [lookup_store_other hxy] at hx
    exact h x p hx

end Sys2Proof.Machine
end

