-- ==== Sys2Proof/Laws/Step.lean ====
section
/-! SUPPORT. What a step can do, said once (`step_cases`), and what reading a line and receiving a response do: the lemmas
that proofs about runs cite and do not unfold. -/

namespace Sys2Proof.Machine

/-! ## Reading a line -/

theorem readInt_ok {vars : List (VarName × Payload)} {o : IntOperand} {v : Int} :
    readInt vars o = .ok v ↔ (o = .lit v ∨ ∃ x, o = .var x ∧ lookup x vars = some (.int v)) := by
  cases o with
  | lit n => simp [readInt]
  | var x =>
    simp only [readInt]
    cases h : lookup x vars with
    | none => simp [h]
    | some p => cases p <;> simp [h]

theorem readCont_ok {vars : List (VarName × Payload)} {o : ContOperand} {c : Container} :
    readCont vars o = .ok c ↔ ((o = .unnamed ∧ c = ⟨0, 0⟩) ∨ ∃ x, o = .var x ∧ lookup x vars = some (.cont c)) := by
  cases o with
  | unnamed => simp [readCont, eq_comm]
  | var x =>
    simp only [readCont]
    cases h : lookup x vars with
    | none => simp [h]
    | some p => cases p <;> simp [h]

/-- Why reading an operand can fail: its variable has no value, or one of the wrong kind. -/
def IsProgramFault (f : Fault) : Prop := ∃ x, f = .unsetVariable x ∨ f = .wrongKind x

theorem readInt_error {vars : List (VarName × Payload)} {o : IntOperand} {f : Fault} (h : readInt vars o = .error f) :
    IsProgramFault f := by
  cases o with
  | lit n => simp [readInt] at h
  | var x =>
    simp only [readInt] at h
    split at h <;> cases h <;> exact ⟨x, by simp⟩

theorem readCont_error {vars : List (VarName × Payload)} {o : ContOperand} {f : Fault}
    (h : readCont vars o = .error f) : IsProgramFault f := by
  cases o with
  | unnamed => simp [readCont] at h
  | var x =>
    simp only [readCont] at h
    split at h <;> cases h <;> exact ⟨x, by simp⟩

theorem bind_eq_ok {α β : Type} {x : Except Fault α} {f : α → Except Fault β} {b : β} :
    (x >>= f) = .ok b ↔ ∃ a, x = .ok a ∧ f a = .ok b := by
  cases x <;> simp [bind, Except.bind]

theorem bind_eq_error {α β : Type} {x : Except Fault α} {f : α → Except Fault β} {e : Fault} :
    (x >>= f) = .error e ↔ x = .error e ∨ ∃ a, x = .ok a ∧ f a = .error e := by
  cases x <;> simp [bind, Except.bind]

/-- A line is read when each of its operands is. -/
theorem readLine_ok {vars : List (VarName × Payload)} {l : Line} {q : Request} :
    readLine vars l = .ok q ↔
      q.cmd = l.cmd ∧ readCont vars l.ca = .ok q.ca ∧ readCont vars l.cb = .ok q.cb ∧ readInt vars l.a = .ok q.a ∧
      readInt vars l.b = .ok q.b ∧ readInt vars l.c = .ok q.c ∧ readInt vars l.d = .ok q.d ∧
      readInt vars l.e = .ok q.e := by
  unfold readLine
  simp only [bind_eq_ok]
  constructor
  · rintro ⟨ca, h1, cb, h2, a, h3, b, h4, c, h5, d, h6, e, h7, h⟩
    cases h
    exact ⟨rfl, h1, h2, h3, h4, h5, h6, h7⟩
  · rintro ⟨h0, h1, h2, h3, h4, h5, h6, h7⟩
    exact ⟨_, h1, _, h2, _, h3, _, h4, _, h5, _, h6, _, h7, by rw [← h0]; rfl⟩

theorem readLine_error {vars : List (VarName × Payload)} {l : Line} {f : Fault} (h : readLine vars l = .error f) :
    IsProgramFault f := by
  unfold readLine at h
  simp only [bind_eq_error] at h
  rcases h with h | ⟨ca, -, h | ⟨cb, -, h | ⟨a, -, h | ⟨b, -, h | ⟨c, -, h | ⟨d, -, h | ⟨e, -, h⟩⟩⟩⟩⟩⟩⟩
  · exact readCont_error h
  · exact readCont_error h
  · exact readInt_error h
  · exact readInt_error h
  · exact readInt_error h
  · exact readInt_error h
  · exact readInt_error h
  · cases h

/-- With nothing shared, issuing a line is reading it. -/
theorem issue_of_nothing_shared {s : State} (l : Line) (h : s.shared = []) :
    issue l s = match readLine s.vars l with
      | .ok q => .next { s with inFlight := some q }
      | .error f => .fault f := by
  have e : l.names.find? (fun x => s.shared.contains x) = none := by simp [h]
  unfold issue
  cases readLine s.vars l <;> simp only [e]

/-! ## Receiving a response -/

/-- A response is written back to one variable, or to none. -/
theorem writeBack_cases (dst : Option VarName) (r : Response) (vars : List (VarName × Payload)) :
    writeBack dst r vars = vars ∨
      ∃ x p, dst = some x ∧ r.status = .ok ∧ r.payload = some p ∧ writeBack dst r vars = store x p vars := by
  unfold writeBack
  split
  · exact .inr ⟨_, _, rfl, by assumption, by assumption, rfl⟩
  · exact .inl rfl

/-! ## The step -/

theorem step_of_inFlight {s : State} {q : Request} (hr : s.resetAsserted = false) (hq : s.inFlight = some q) :
    step s = answerWord q.cmd s := by simp [step, hr, hq]

theorem step_of_idle {s : State} (hr : s.resetAsserted = false) (hq : s.inFlight = none) : step s = issueNext s := by
  simp [step, hr, hq]

/-- Answering a word delivers a well-formed response, which the requester receives. -/
theorem answerWord_next {s t : State} {w : Word} (h : answerWord w s = .next t) :
    ∃ r, r.wf ∧ t = receive (s.deliver r) := by
  unfold answerWord at h
  split at h
  · next i hi =>
    cases he : exec i s with
    | next u =>
      rw [he] at h
      obtain ⟨q, hq, _, _, rfl⟩ := exec_next he
      cases h
      exact ⟨_, (rule_within i q).wf, rfl⟩
    | fault f =>
      rw [he] at h
      cases h
    | refused x =>
      rw [he] at h
      cases h
  · cases h
    exact ⟨_, ⟨by simp, by simp⟩, rfl⟩

/-- If a step answers a next state: reset took effect, or a well-formed response was delivered and received, or a line was
issued, or the program had ended. -/
theorem step_cases {s t : State} (h : step s = .next t) :
    (s.resetAsserted = true ∧ t = takeReset s) ∨
    (s.resetAsserted = false ∧ ∃ q r, s.inFlight = some q ∧ r.wf ∧ t = receive (s.deliver r)) ∨
    (s.resetAsserted = false ∧ s.inFlight = none ∧
      ∃ l q, s.program[s.pos]? = some l ∧ readLine s.vars l = .ok q ∧ t = { s with inFlight := some q }) ∨
    (s.resetAsserted = false ∧ s.inFlight = none ∧ s.program[s.pos]? = none ∧ t = s) := by
  by_cases hr : s.resetAsserted = true
  · rw [step, if_pos hr] at h
    cases h
    exact .inl ⟨hr, rfl⟩
  have hr : s.resetAsserted = false := by simpa using hr
  right
  cases hq : s.inFlight with
  | some q =>
    rw [step_of_inFlight hr hq] at h
    obtain ⟨r, hw, rfl⟩ := answerWord_next h
    exact .inl ⟨hr, q, r, rfl, hw, rfl⟩
  | none =>
    rw [step_of_idle hr hq, issueNext] at h
    cases hl : s.program[s.pos]? with
    | none =>
      rw [hl] at h
      cases h
      exact .inr (.inr ⟨hr, rfl, rfl, rfl⟩)
    | some l =>
      rw [hl] at h
      simp only [issue] at h
      split at h
      · cases h
      · split at h
        · next q hread =>
          cases h
          exact .inr (.inl ⟨hr, rfl, l, q, rfl, hread, rfl⟩)
        · cases h

end Sys2Proof.Machine
end

