-- ==== Sys2Proof/Tests/Slice0.lean ====
section
/-! SUPPORT. The model's own tests. Expected values are the spec's: the encodings of 30_encoding.md R39 to R42, and the
worked examples and vectors of 95_test_vectors.md, cited by their numbers. After them, for each obligation with
hypotheses, a witness: concrete states and operands that meet them, clause by clause, at the ends of the ranges. -/

namespace Sys2Proof.Tests

open Sys2Proof Sys2Proof.Machine

/-! ## Helpers -/

/-- A request with the given integer slots. -/
def ints (a b : Int) (c d e : Int := 0) : Request := ⟨0#32, ⟨0, 0⟩, ⟨0, 0⟩, a, b, c, d, e⟩

/-- A request with a container and integer slots. -/
def onC (c : Container) (a b x : Int := 0) : Request := ⟨0#32, c, ⟨0, 0⟩, a, b, x, 0, 0⟩

/-- A request in flight at the reference instance. -/
def wide (q : Request) : State := { State.reset with inFlight := some q }

/-- A request in flight at an instance with 8-bit integer ports and 16-bit container ports. -/
def small (q : Request) : State := { wide q with ports := ⟨some 8, some 16⟩ }

/-- The response an instruction answers, if it completes. -/
def answerOf (i : Instr) (s : State) : Option Response :=
  match exec i s with
  | .next t => t.response
  | .fault _ | .refused _ => none

/-- Why an instruction is refused, if it is. -/
def refusalOf (i : Instr) (s : State) : Option Refusal :=
  match exec i s with
  | .refused x => some x
  | .next _ | .fault _ => none

theorem answers_of_answerOf {i : Instr} {s : State} {r : Response} (h : answerOf i s = some r) : Answers i s r := by
  unfold answerOf at h
  split at h
  · next t ht =>
    obtain ⟨q, hq, ho, hp, rfl⟩ := exec_next ht
    cases h
    exact ht
  · cases h
  · cases h

/-- The response the core gives to command word `w`, by one step. -/
def respond (w : Word) (q : Request) : Option Response :=
  match step (wide { q with cmd := w }) with
  | .next t => t.response
  | .fault _ | .refused _ => none

def okInt (v : Int) : Option Response := some (.ret (.int v))
def okCont (d w : Int) : Option Response := some (.ret (.cont ⟨d, w⟩))
def okList (l : List Nat) : Option Response := some (.ret (.list l))
def error (e : Status) : Option Response := some (.raise e)

/-- One instruction of each constructor. -/
def oneOfEach : List Instr :=
  [.clip true, .wrap, .round .halfEven true, .uround .halfUp true, .trunc true, .requant .halfUp true true, .bfNew true] ++
  [.bfGetbit, .bfGet, .bfSetbit, .bfSet, .bfRev, .bfOnes, .bfZeros, .invtop, .svNew .byte true, .svGet .byte] ++
  [.svGetr .byte, .svSet .byte, .svSetr .byte, .bfCat]

/-! ## Decoding: words written out from R39 to R42, opcode in bits [5:0] and each field at its place -/

theorem test_decode_quantization :
    decode 0b000000000000000_00_00_0_0_0_00_0_00_000001#32 = some (.clip false) ∧
    decode 0b000000000000000_00_00_0_0_0_00_1_00_000001#32 = some (.clip true) ∧
    decode 0x00000002#32 = some .wrap ∧
    decode 0x00000003#32 = some (.round .halfUp false) ∧ decode 0x00000203#32 = some (.round .halfAway false) ∧
    decode 0x00000C03#32 = some (.round .halfEven true) ∧ decode 0x00000603#32 = some (.round .unsupported false) ∧
    decode 0x00000004#32 = some (.uround .halfUp false) ∧ decode 0x00000C04#32 = some (.uround .halfEven true) ∧
    decode 0x00000005#32 = some (.trunc false) ∧ decode 0x00000105#32 = some (.trunc true) ∧
    decode 0x00001006#32 = some (.requant .halfUp true false) ∧
    decode 0x00002206#32 = some (.requant .halfAway false true) := by decide

theorem test_decode_bitfield :
    decode 0x00000010#32 = some (.bfNew false) ∧ decode 0x00004010#32 = some (.bfNew true) ∧
    decode 0x00000011#32 = some .bfGetbit ∧ decode 0x00000012#32 = some .bfGet ∧
    decode 0x00000013#32 = some .bfSetbit ∧ decode 0x00000014#32 = some .bfSet ∧
    decode 0x00000015#32 = some .bfRev ∧ decode 0x00000016#32 = some .bfOnes ∧
    decode 0x00000017#32 = some .bfZeros ∧ decode 0x00000018#32 = some .invtop ∧ decode 0x00000030#32 = some .bfCat := by
  decide

theorem test_decode_symbol_views :
    decode 0x00000020#32 = some (.svNew .byte false) ∧ decode 0x00034020#32 = some (.svNew .doubleword true) ∧
    decode 0x00010021#32 = some (.svGet .halfword) ∧ decode 0x00020022#32 = some (.svGetr .word) ∧
    decode 0x00030023#32 = some (.svSet .doubleword) ∧ decode 0x00000024#32 = some (.svSetr .byte) := by decide

/-- V-IL1 to V-IL10: unassigned opcodes, reserved bits, and fields the operation does not use. -/
theorem test_decode_illegal :
    [0x00000000#32, 0x0000003F#32, 0x00000102#32, 0x00000041#32, 0x00008003#32, 0x00040001#32, 0x80000001#32,
      0x00010012#32, 0x00000E06#32, 0x00004011#32].map decode = List.replicate 10 none := by decide

theorem test_encode_fields :
    encode (.round .halfEven true) = 0x00000C03#32 ∧ encode (.requant .halfAway true true) = 0x00003206#32 ∧
    encode (.svNew .doubleword true) = 0x00034020#32 := by decide

theorem test_decodeTableWord :
    decodeTableWord 32 0x00010024 = some (.svSetr .halfword) ∧ decodeTableWord 32 0x102 = none ∧
    decodeTableWord 40 0x100000001 = none := by decide

/-! ## Well-formedness: each check refuses an ill-formed term -/

theorem test_wf_direction : Instr.namesOperation (.round .unsupported true) = false ∧
    Instr.namesOperation (.uround .unsupported false) = false ∧
    Instr.namesOperation (.requant .unsupported false true) = false ∧
    Instr.namesOperation (.round .halfEven true) = true ∧ Dir.namesPolicy .unsupported = false := by decide

theorem test_wf_container : ¬ Container.wf ⟨0, 0⟩ ∧ ¬ Container.wf ⟨-1, 4⟩ ∧ ¬ Container.wf ⟨16, 4⟩ ∧
    ¬ Container.wf ⟨0, -3⟩ ∧ Container.wf ⟨15, 4⟩ := by decide

theorem test_wf_payload : ¬ Payload.wf (.cont ⟨16, 4⟩) ∧ ¬ Payload.wf (.list [1, 1]) ∧ Payload.wf (.list [0, 3]) := by
  unfold Payload.wf
  decide

theorem test_wf_response : ¬ Response.wf ⟨.ok, none⟩ ∧ ¬ Response.wf ⟨.rangeError, some (.int 0)⟩ ∧
    ¬ Response.wf ⟨.ok, some (.list [2, 1])⟩ := by simp [Response.wf, Payload.wf]

theorem test_wf_ports : Config.Ports.wf ⟨some 0, none⟩ = false ∧ Config.Ports.wf ⟨none, some 0⟩ = false ∧
    Config.Ports.wf Config.reference = true := by decide

theorem test_store_canonical :
    store 2 (.int 5) [(1, .int 1), (3, .int 3)] = [(1, .int 1), (2, .int 5), (3, .int 3)] ∧
    store 3 (.int 5) [(1, .int 1), (3, .int 3)] = [(1, .int 1), (3, .int 5)] ∧
    ¬ VarsWf [(2, .int 1), (1, .int 1)] ∧ lookup 2 [(1, .int 1), (3, .int 3)] = none := by decide

/-! ## One step per instruction -/

/-- V-CL6, V-CL7, V-CL12, V-CL13. -/
theorem test_clip : respond 0x00000001#32 (ints (-129) 8) = okInt (-128) ∧
    respond 0x00000101#32 (ints (-128) 8) = okInt (-127) ∧ respond 0x00000101#32 (ints (-5) 1) = okInt 0 ∧
    respond 0x00000001#32 (ints 5 0) = okInt 0 := by decide

/-- V-WR2, V-WR6, V-WR8, V-WR11. -/
theorem test_wrap : respond 0x00000002#32 (ints 128 8) = okInt (-128) ∧
    respond 0x00000002#32 (ints (-129) 8) = okInt 127 ∧ respond 0x00000002#32 (ints 3 1) = okInt (-1) ∧
    respond 0x00000002#32 (ints 77 (-1)) = okInt 0 := by decide

/-- S-R2, S-R4, S-R8, V-RN27, V-RN34, V-RN38. -/
theorem test_round : respond 0x00000003#32 (ints (-1) 1) = okInt 0 ∧ respond 0x00000203#32 (ints (-1) 1) = okInt (-1) ∧
    respond 0x00000403#32 (ints (-3) 1) = okInt (-2) ∧ respond 0x00000803#32 (ints 7 0 2) = okInt 7 ∧
    respond 0x00000803#32 (ints (-1000) 2 8) = okInt (-250) ∧
    respond 0x00000603#32 (ints 5 0) = error .configurationError := by decide

/-- V-UR2, V-UR7, V-UR9, V-UR12. -/
theorem test_uround : respond 0x00000404#32 (ints 5 1) = okInt 2 ∧
    respond 0x00000004#32 (ints (-1) 0) = error .domainError ∧ respond 0x00000804#32 (ints 1000 1 8) = okInt 255 ∧
    respond 0x00000604#32 (ints (-1) 1) = error .configurationError := by decide

/-- S-T1, S-T2, V-TR6, V-TR10. -/
theorem test_trunc : respond 0x00000005#32 (ints (-3) 1) = okInt (-2) ∧
    respond 0x00000105#32 (ints (-3) 1) = okInt (-1) ∧ respond 0x00000105#32 (ints (-1) 4) = okInt 0 ∧
    respond 0x00000105#32 (ints (-9) (-1)) = okInt (-9) := by decide

/-- V-RQ2, V-RQ11, V-RQ14, V-RQ16, V-RQ18, V-RQ21. -/
theorem test_requant : respond 0x00001006#32 (ints 1000 16 8 2 0) = okInt (-6) ∧
    respond 0x00003406#32 (ints 20 16 8 3 0) = okInt 2 ∧ respond 0x00002006#32 (ints 200 8 8 0 0) = okInt (-56) ∧
    respond 0x00002006#32 (ints 127 8 8 0 1) = okInt (-2) ∧
    respond 0x00000006#32 (ints 5 8 8 0 (-1)) = error .rangeError ∧
    respond 0x00000606#32 (ints 5 8 8 0 0) = error .configurationError := by decide

/-- V-BN1, V-BN3, V-BN6, V-BN8. -/
theorem test_bfNew : respond 0x00000010#32 (ints 57005 16) = okCont 0xDEAD 16 ∧
    respond 0x00000010#32 (ints 256 8) = error .rangeError ∧ respond 0x00000010#32 (ints (-1) 8) = error .domainError ∧
    respond 0x00004010#32 (ints 0 0) = okCont 0 1 := by decide

/-- V-BG2, V-BG3, V-BG4, V-BG15. -/
theorem test_bfGetbit : respond 0x00000011#32 (onC ⟨11, 4⟩ 2) = okInt 0 ∧ respond 0x00000011#32 (onC ⟨11, 4⟩ 3) = okInt 1 ∧
    respond 0x00000011#32 (onC ⟨11, 4⟩ 4) = error .rangeError ∧
    respond 0x00000011#32 (onC ⟨0, 0⟩ 0) = error .rangeError := by decide

/-- V-BG8, V-BG11, V-BG14. -/
theorem test_bfGet : respond 0x00000012#32 (onC ⟨0xDEAD, 16⟩ 11 4) = okInt 234 ∧
    respond 0x00000012#32 (onC ⟨0xDEAD, 16⟩ 0 7) = error .rangeError ∧
    respond 0x00000012#32 (onC ⟨16, 4⟩ 3 0) = error .rangeError := by decide

/-- V-BS2, V-BS3, V-BS5. -/
theorem test_bfSetbit : respond 0x00000013#32 (onC ⟨0, 8⟩ 7 1) = okCont 128 8 ∧
    respond 0x00000013#32 (onC ⟨255, 8⟩ 3 0) = okCont 247 8 ∧
    respond 0x00000013#32 (onC ⟨0, 8⟩ 0 2) = error .rangeError := by decide

/-- V-BS8, V-BS9, V-BS11, V-BS12. -/
theorem test_bfSet : respond 0x00000014#32 (onC ⟨0xDEAD, 16⟩ 15 8 190) = okCont 0xBEAD 16 ∧
    respond 0x00000014#32 (onC ⟨0, 8⟩ 7 4 (-1)) = okCont 240 8 ∧
    respond 0x00000014#32 (onC ⟨0, 8⟩ 3 0 16) = error .rangeError ∧
    respond 0x00000014#32 (onC ⟨0, 8⟩ 3 0 (-2)) = error .rangeError := by decide

/-- V-BR1, V-BR2, V-BR4. -/
theorem test_bfRev : respond 0x00000015#32 (onC ⟨1, 8⟩) = okInt 128 ∧ respond 0x00000015#32 (onC ⟨6, 3⟩) = okInt 3 ∧
    respond 0x00000015#32 (onC ⟨0xDEAD, 16⟩) = okInt 46459 := by decide

/-- V-BR6 to V-BR9. -/
theorem test_bfOnes_bfZeros : respond 0x00000016#32 (onC ⟨11, 4⟩) = okList [0, 1, 3] ∧
    respond 0x00000017#32 (onC ⟨11, 4⟩) = okList [2] ∧ respond 0x00000016#32 (onC ⟨0, 8⟩) = okList [] ∧
    respond 0x00000017#32 (onC ⟨0, 3⟩) = okList [0, 1, 2] := by decide

/-- V-BR10, V-BR11, V-BR14, V-BR16. -/
theorem test_invtop : respond 0x00000018#32 (ints 5 3) = okInt 1 ∧ respond 0x00000018#32 (ints 1 3) = okInt 5 ∧
    respond 0x00000018#32 (ints (-1) 4) = okInt 7 ∧ respond 0x00000018#32 (ints 1 0) = error .rangeError := by decide

/-- V-SV2, V-SV3, V-SV4, V-SV5. -/
theorem test_svNew : respond 0x00000020#32 (ints 3735928559 3) = error .rangeError ∧
    respond 0x00004020#32 (ints 3735928559 0) = okCont 0xDEADBEEF 32 ∧
    respond 0x00014020#32 (ints 131071 0) = okCont 0x1FFFF 32 ∧ respond 0x00024020#32 (ints 0 0) = okCont 0 32 := by decide

/-- V-SV9, V-SV13, V-SV15, V-SV16. -/
theorem test_svGet : respond 0x00000021#32 (onC ⟨0xDEADBEEF, 32⟩ 0) = okInt 239 ∧
    respond 0x00010021#32 (onC ⟨0xDEADBEEF, 32⟩ 1) = okInt 57005 ∧
    respond 0x00030021#32 (onC ⟨0xDEADBEEF, 32⟩ 0) = error .rangeError ∧
    respond 0x00000021#32 (onC ⟨0x1FF, 12⟩ 1) = error .rangeError := by decide

/-- V-SV18, V-SV19, V-SV20. -/
theorem test_svGetr : respond 0x00000022#32 (onC ⟨0xDEADBEEF, 32⟩ 2 1) = okInt 44478 ∧
    respond 0x00000022#32 (onC ⟨0xDEADBEEF, 32⟩ 1 2) = error .rangeError ∧
    respond 0x00010022#32 (onC ⟨0xDEADBEEF, 32⟩ 1 0) = okInt 3735928559 := by decide

/-- V-SV21, V-SV22, V-SV23, V-SV24. -/
theorem test_svSet : respond 0x00000023#32 (onC ⟨0xDEADBEEF, 32⟩ 0 17) = okCont 0xDEADBE11 32 ∧
    respond 0x00000023#32 (onC ⟨0xDEADBEEF, 32⟩ 3 (-1)) = okCont 0xFFADBEEF 32 ∧
    respond 0x00000023#32 (onC ⟨0xDEADBEEF, 32⟩ 0 256) = error .rangeError ∧
    respond 0x00000023#32 (onC ⟨0xDEADBEEF, 32⟩ 4 0) = error .rangeError := by decide

/-- V-SV25, V-SV26, V-SV27. -/
theorem test_svSetr : respond 0x00000024#32 (onC ⟨0xDEADBEEF, 32⟩ 1 0 4660) = okCont 0xDEAD1234 32 ∧
    respond 0x00010024#32 (onC ⟨0xDEADBEEF, 32⟩ 1 1 (-1)) = okCont 0xFFFFBEEF 32 ∧
    respond 0x00000024#32 (onC ⟨0xDEADBEEF, 32⟩ 1 0 65536) = error .rangeError := by decide

/-- V-CT1, V-CT3, V-CT5. -/
theorem test_bfCat : respond 0x00000030#32 { onC ⟨0xDEAD, 16⟩ with cb := ⟨0xBEEF, 16⟩ } = okCont 0xDEADBEEF 32 ∧
    respond 0x00000030#32 { onC ⟨0, 4⟩ with cb := ⟨5, 3⟩ } = okCont 5 7 ∧
    respond 0x00000030#32 (onC ⟨0xDEAD, 16⟩) = error .rangeError := by decide

/-- V-IL3, V-IL9, V-IL11. -/
theorem test_illegal_word : respond 0x00000102#32 (ints 5 8) = error .illegalCommand ∧
    respond 0x00000E06#32 (ints 5 8 8 0 0) = error .illegalCommand ∧
    respond 0x00000E03#32 (ints 5 1 8) = error .configurationError := by decide

/-! ## The machine around the instructions -/

/-- The first step after `withFetchWord` runs the word's instruction: `bf.new 0`, and an illegal word. -/
theorem test_withFetchWord :
    (match step (State.reset.withFetchWord 32 0x4010) with
      | .next t => t.response
      | .fault _ | .refused _ => none) = okCont 0 1 ∧
    (match step (State.reset.withFetchWord 32 0x102) with
      | .next t => t.response
      | .fault _ | .refused _ => none) = error .illegalCommand := by decide

/-- R14 at 8-bit and 16-bit ports: a slot that is read lies outside, a slot that is not read may, and a payload lies
outside. -/
theorem test_ports :
    refusalOf (.clip false) (small (ints 128 8)) = some .operandOutsidePort ∧
    answerOf (.clip false) (small (ints 127 8 128)) = okInt 127 ∧
    refusalOf (.uround .halfUp false) (small (ints 127 0 0)) = none ∧
    refusalOf .bfRev (small (onC ⟨1, 8⟩)) = some .payloadOutsidePort ∧
    refusalOf .bfRev (small (onC ⟨0, 17⟩)) = some .operandOutsidePort := by decide

/-- A line `$1 = clip 100, 8` from a given program: issued in one step, answered in the next (R49). -/
theorem test_program_line :
    (match Sys2Proof.core.run 2 (State.reset.withProgram [assemble (some 1) (.clip false (.lit 100) (.lit 8))]) with
      | .next t => decide (t.vars = [(1, .int 100)] ∧ t.statuses = [.ok] ∧ t.pos = 1)
      | .fault _ | .refused _ => false) = true := by decide

/-- P5: a line that reads an unset variable is a program fault; so is one of the wrong kind. -/
theorem test_program_faults :
    (match step (State.reset.withProgram [assemble (some 1) (.clip false (.var 7) (.lit 8))]) with
      | .fault f => some f
      | .next _ | .refused _ => none) = some (.unsetVariable 7) ∧
    (match step { State.reset.withProgram [assemble none (.bfRev 7)] with vars := [(7, .int 1)] } with
      | .fault f => some f
      | .next _ | .refused _ => none) = some (.wrongKind 7) := by decide

/-! ## Witnesses: states and operands that meet the hypotheses of each obligation -/

theorem witness_DecodedWordIsItsEncoding : decode 0x00003606#32 = some (.requant .unsupported true true) := by decide

/-- Width 0; above, below (both modes) and at both ends of the 4-bit range; width 1. -/
theorem witness_ClipSaturatesToTheWidth :
    (∀ q ∈ [ints 5 0, ints 8 4, ints (-9) 4, ints (-8) 4, ints 7 4, ints (-7) 4, ints 1 1],
      (small q).inFlight = some q ∧ intFits (small q).ports q.a ∧ intFits (small q).ports q.b) ∧
    (ints 5 0).b ≤ 0 ∧ ((4 : Int) = (3 : Nat) + 1 ∧ (8 : Int) > 2 ^ 3 - 1) ∧ ((1 : Int) = (0 : Nat) + 1 ∧ (1 : Int) > 2 ^ 0 - 1) ∧
    ((-9 : Int) < -2 ^ 3 ∧ (-8 : Int) < -2 ^ 3 + 1) ∧
    (-2 ^ 3 ≤ (-8 : Int) ∧ (-2 ^ 3 + 1 : Int) ≤ -7 ∧ (7 : Int) ≤ 2 ^ 3 - 1) := by decide

/-- Width 0; the largest remainder that stays, and the smallest that becomes negative. -/
theorem witness_WrapReducesToTheWidth :
    (∀ q ∈ [ints 5 0, ints 7 4, ints 8 4],
      (small q).inFlight = some q ∧ intFits (small q).ports q.a ∧ intFits (small q).ports q.b) ∧
    (ints 5 0).b ≤ 0 ∧ (ints 7 4).b = (3 : Nat) + 1 ∧ (ints 7 4).a % 2 ^ (3 + 1) < 2 ^ 3 ∧
    2 ^ 3 ≤ (ints 8 4).a % 2 ^ (3 + 1) := by decide

theorem witness_WrapResultIsTheOneInRange :
    (small (ints 8 4)).inFlight = some (ints 8 4) ∧ intFits (small (ints 8 4)).ports 8 ∧
    intFits (small (ints 8 4)).ports 4 ∧ (ints 8 4).b = (3 : Nat) + 1 := by decide

/-- Both ends of the 4-bit range, and just outside them. -/
theorem witness_ClipAndWrapLaws :
    (∀ q ∈ [ints (-8) 4, ints 7 4, ints 8 4, ints (-9) 4],
      (small q).inFlight = some q ∧ intFits (small q).ports q.a ∧ intFits (small q).ports q.b ∧ q.b = (3 : Nat) + 1) ∧
    (-2 ^ 3 ≤ (-8 : Int) ∧ (-8 : Int) ≤ 2 ^ 3 - 1) ∧ (7 : Int) ≤ 2 ^ 3 - 1 ∧
    (8 : Int) > 2 ^ 3 - 1 ∧ (-9 : Int) < -2 ^ 3 := by decide

/-- No policy; a count of 0; ties at 3 bits for each policy; a clamp at width 0 and at width 1. -/
theorem witness_RoundFollowsItsPolicy :
    (∀ q ∈ [ints 5 0 8, ints 4 3 0, ints 4 3 1, ints (-4) 3 1],
      (small q).inFlight = some q ∧ intFits (small q).ports q.a ∧ intFits (small q).ports q.b ∧ intFits (small q).ports q.c) ∧
    (ints 5 0 8).b ≤ 0 ∧ (ints 4 3 0).b = (2 : Nat) + 1 ∧ (1 : Int) = (4 + 2 ^ 2) / 2 ^ (2 + 1) ∧
    (0 : Int) = (if (4 : Int) % 2 ^ (2 + 1) = 2 ^ 2 ∧ (1 : Int) % 2 = 1 then 1 - 1 else 1) ∧
    (-1 : Int) = (if (0 : Int) ≤ -4 then 0 else (-4 + 2 ^ 2 - 1) / 2 ^ (2 + 1)) ∧
    (ints 4 3 0).c ≤ 0 ∧ 1 ≤ (ints 4 3 1).c := by decide

/-- The ties 3/2 and -1/2. -/
theorem witness_RoundGivesTheNearestInteger :
    (∀ q ∈ [ints 12 3, ints (-4) 3],
      (small q).inFlight = some q ∧ intFits (small q).ports q.a ∧ intFits (small q).ports q.b ∧ q.b = (2 : Nat) + 1) ∧
    Dir.halfAway ≠ .unsupported ∧ (12 : Int) = 2 ^ (2 + 1) * 1 + 2 ^ 2 ∧ (-4 : Int) = 2 ^ (2 + 1) * -1 + 2 ^ 2 := by decide

/-- -1 and 0; a count of 0 and of 1; a clamp at width 0 and at width 1. -/
theorem witness_UroundIsRoundOfNonNegativeValues :
    (∀ q ∈ [ints (-1) 1 0, ints 0 0 0, ints 0 1 0, ints 5 1 1],
      (small q).inFlight = some q ∧ intFits (small q).ports q.a ∧ intFits (small q).ports q.b ∧ intFits (small q).ports q.c) ∧
    Dir.halfEven ≠ .unsupported ∧ (ints (-1) 1 0).a < 0 ∧ 0 ≤ (ints 0 0 0).a ∧ (ints 0 0 0).b ≤ 0 ∧
    1 ≤ (ints 0 1 0).b ∧ (ints 0 1 0).c ≤ 0 ∧ 1 ≤ (ints 5 1 1).c := by decide

theorem witness_TruncShiftsOutTheLowBits :
    (∀ q ∈ [ints 5 0, ints 0 1, ints (-1) 1],
      (small q).inFlight = some q ∧ intFits (small q).ports q.a ∧ intFits (small q).ports q.b) ∧
    (ints 5 0).b ≤ 0 ∧ 1 ≤ (ints 0 1).b ∧ 0 ≤ (ints 0 1).a ∧ 1 ≤ (ints (-1) 1).b ∧ (ints (-1) 1).a < 0 := by decide

/-- Gains of -1, 0 and 1; the result at the gain of 1 is V-RQ16's. -/
theorem witness_RequantIsTheChainOfUnits :
    (∀ q ∈ [ints 5 8 8 0 (-1), ints 127 8 8 0 0, ints 127 8 8 0 1],
      (small q).inFlight = some q ∧ intFits (small q).ports q.a ∧ intFits (small q).ports q.b ∧
      intFits (small q).ports q.c ∧ intFits (small q).ports q.d ∧ intFits (small q).ports q.e) ∧
    (ints 5 8 8 0 (-1)).e < 0 ∧ 0 ≤ (ints 127 8 8 0 0).e ∧ Dir.halfUp ≠ .unsupported ∧
    answerOf (.requant .halfUp false true) (small (ints 127 8 8 0 1)) = okInt (-2) ∧ intFits ⟨some 8, some 16⟩ (-2) := by
  decide

theorem witness_RequantIsTheChainOfUnits_sub : ∃ sub : Int → Int → State, ∀ x y,
    sub x y = { small (ints 127 8 8 0 1) with
      ports := Config.reference
      inFlight := some { ints 127 8 8 0 1 with a := x, b := y } } := ⟨_, fun _ _ => rfl⟩

theorem witness_RequantToTheSameWidth :
    (∀ q ∈ [ints (-8) 4 4, ints 7 4 4],
      (small q).inFlight = some q ∧ intFits (small q).ports q.a ∧ intFits (small q).ports q.b ∧ q.c = q.b ∧ q.d = 0 ∧
      q.e = 0 ∧ intFits (small q).ports 0 ∧ q.b = (3 : Nat) + 1 ∧ -2 ^ 3 ≤ q.a ∧ q.a < 2 ^ 3) ∧
    Dir.halfUp ≠ .unsupported ∧ answerOf .wrap (small (ints (-8) 4 4)) = okInt (-8) := by decide

/-- Width 0, data one too large, and negative data, in `ca` and in `cb`. -/
theorem witness_IllFormedContainerIsRangeError :
    (∀ c ∈ [(⟨0, 0⟩ : Container), ⟨16, 4⟩, ⟨-1, 4⟩], ¬ c.wf ∧
      ∀ i ∈ [Instr.bfGetbit, .bfGet, .bfSetbit, .bfSet, .bfRev, .bfOnes, .bfZeros, .svGet .byte, .svGetr .byte, .svSet .byte,
        .svSetr .byte, .bfCat],
        operandsFit (small (onC c)).ports (slotUse i) (onC c) ∧ answerOf i (small (onC c)) = error .rangeError) ∧
    (∀ c ∈ [(⟨0, 0⟩ : Container), ⟨16, 4⟩, ⟨-1, 4⟩],
      operandsFit ⟨some 8, some 16⟩ (slotUse .bfCat) { onC ⟨1, 1⟩ with cb := c } ∧
      answerOf .bfCat (small { onC ⟨1, 1⟩ with cb := c }) = error .rangeError) := by decide

/-- -1; the omitted width of 0, 1, 64 and 127; widths 0, one too few, just enough, and the widest the port carries. -/
theorem witness_BfNewConstructsAContainer :
    (∀ q ∈ [ints (-1) 8, ints 0 0, ints 1 1, ints 64 6, ints 127 7, ints 127 16],
      (small q).inFlight = some q ∧ intFits (small q).ports q.a ∧ intFits (small q).ports q.b) ∧
    (0 : Int) < 2 ^ 1 ∧ (1 : Int) < 2 ^ 1 ∧ ((64 : Int) < 2 ^ 7 ∧ (2 : Int) ^ (7 - 1) ≤ 64) ∧ (127 : Int) < 2 ^ 7 ∧
    (ints 0 0).b ≤ 0 ∧ (2 : Int) ^ (6 : Int).toNat ≤ 64 ∧ (127 : Int) < 2 ^ (7 : Int).toNat ∧
    contFits ⟨some 8, some 16⟩ ⟨127, 7⟩ ∧ contFits ⟨some 8, some 16⟩ ⟨127, 16⟩ := by decide

/-- Indices -1 and 4 of a 4-bit container, and 0 and 3. -/
theorem witness_BfGetbitReadsOneBit :
    (∀ i ∈ [(-1 : Int), 0, 3, 4], contFits (small (onC ⟨11, 4⟩ i)).ports ⟨11, 4⟩ ∧ intFits (small (onC ⟨11, 4⟩ i)).ports i) ∧
    Container.wf ⟨11, 4⟩ ∧ (1 : Int) = 11 / 2 ^ (3 : Int).toNat % 2 ∧ intFits ⟨some 8, some 16⟩ 1 ∧
    answerOf .bfGetbit (small (onC ⟨11, 4⟩ 3)) = okInt 1 ∧
    answerOf .bfGetbit (small (onC ⟨11, 4⟩ 4)) = error .rangeError ∧
    answerOf .bfGetbit (small (onC ⟨11, 4⟩ (-1))) = error .rangeError := by decide

/-- Crossed, negative and too high ranges; the whole container and its top bit. -/
theorem witness_BfGetReadsARange :
    (∀ p ∈ [((0 : Int), (1 : Int)), (3, -1), (4, 0)], (p.1 < p.2 ∨ p.2 < 0 ∨ (4 : Int) ≤ p.1) ∧
      answerOf .bfGet (small (onC ⟨11, 4⟩ p.1 p.2)) = error .rangeError) ∧
    Container.wf ⟨11, 4⟩ ∧ answerOf .bfGet (small (onC ⟨11, 4⟩ 3 0)) = okInt 11 ∧
    answerOf .bfGet (small (onC ⟨11, 4⟩ 3 3)) = okInt 1 ∧
    (11 : Int) = 11 / 2 ^ (0 : Int).toNat % 2 ^ ((3 : Int) - 0 + 1).toNat := by decide

/-- Indices -1 and 4, bit values -1 and 2; bit 0 set and bit 3 cleared. -/
theorem witness_BfSetbitWritesOneBit :
    (∀ p ∈ [((-1 : Int), (0 : Int)), (4, 0), (0, 2), (0, -1)],
      answerOf .bfSetbit (small (onC ⟨10, 4⟩ p.1 p.2)) = error .rangeError) ∧
    Container.wf ⟨10, 4⟩ ∧ answerOf .bfSetbit (small (onC ⟨10, 4⟩ 0 1)) = okCont 11 4 ∧
    answerOf .bfSetbit (small (onC ⟨10, 4⟩ 3 0)) = okCont 2 4 := by decide

/-- Bad ranges; values -2 and one too large; the sentinel, 0 and the largest value. -/
theorem witness_BfSetWritesARange :
    (∀ p ∈ [((0 : Int), (1 : Int), (0 : Int)), (3, -1, 0), (4, 0, 0), (2, 1, -2), (2, 1, 4)],
      answerOf .bfSet (small (onC ⟨9, 4⟩ p.1 p.2.1 p.2.2)) = error .rangeError) ∧
    Container.wf ⟨9, 4⟩ ∧ (2 : Int) ^ (2 - 1 + 1) ≤ 4 ∧ (3 : Int) < 2 ^ (2 - 1 + 1) ∧
    answerOf .bfSet (small (onC ⟨9, 4⟩ 2 1 (-1))) = okCont 15 4 ∧ answerOf .bfSet (small (onC ⟨9, 4⟩ 2 1 3)) = okCont 15 4 ∧
    answerOf .bfSet (small (onC ⟨9, 4⟩ 3 0 0)) = okCont 0 4 := by decide

theorem witness_BfGetReadsWhatBfSetWrote : ∃ (s t u : State) (q : Request) (c : Container),
    s.inFlight = some q ∧ 0 ≤ q.c ∧ exec .bfSet s = .next t ∧ t.response = some (.ret (.cont c)) ∧
    u = { t with inFlight := some { q with ca := c } } :=
  ⟨small (onC ⟨9, 4⟩ 2 1 3), _, _, onC ⟨9, 4⟩ 2 1 3, ⟨15, 4⟩, rfl, by decide,
    answers_of_answerOf (r := .ret (.cont ⟨15, 4⟩)) (by decide), rfl, rfl⟩

theorem witness_BfRevReversesTheBits : contFits (small (onC ⟨1, 4⟩)).ports ⟨1, 4⟩ ∧ Container.wf ⟨1, 4⟩ ∧
    (0 : Nat) < (4 : Int).toNat ∧ intFits (small (onC ⟨1, 4⟩)).ports 8 ∧ answerOf .bfRev (small (onC ⟨1, 4⟩)) = okInt 8 ∧
    answerOf .bfRev (small (onC ⟨1, 1⟩)) = okInt 1 := by decide

theorem witness_BfRevTwiceRestoresTheData : ∃ (s t u : State) (q : Request) (v : Int),
    s.inFlight = some q ∧ exec .bfRev s = .next t ∧ t.response = some (.ret (.int v)) ∧ intFits s.ports q.ca.data ∧
    u = { t with inFlight := some { q with ca := ⟨v, q.ca.width⟩ } } :=
  ⟨small (onC ⟨1, 4⟩), _, _, onC ⟨1, 4⟩, 8, rfl, answers_of_answerOf (r := .ret (.int 8)) (by decide), rfl, by decide, rfl⟩

theorem witness_BfOnesAndZerosListPositions : contFits (small (onC ⟨11, 4⟩)).ports ⟨11, 4⟩ ∧ Container.wf ⟨11, 4⟩ ∧
    answerOf .bfOnes (small (onC ⟨11, 4⟩)) = okList [0, 1, 3] := by decide

/-- Width 0; just below and at the top bit's value; width 1. -/
theorem witness_InvtopInvertsTheTopBit :
    (∀ q ∈ [ints 1 0, ints 3 3, ints 4 3, ints 1 1],
      (small q).inFlight = some q ∧ intFits (small q).ports q.a ∧ intFits (small q).ports q.b) ∧
    (ints 1 0).b ≤ 0 ∧ (ints 4 3).b = (2 : Nat) + 1 ∧ (4 : Int) = 4 % 2 ^ (2 + 1) ∧
    (0 : Int) = (if (2 : Int) ^ 2 ≤ 4 then 4 - 2 ^ 2 else 4 + 2 ^ 2) ∧
    (7 : Int) = (if (2 : Int) ^ 2 ≤ 3 then 3 - 2 ^ 2 else 3 + 2 ^ 2) ∧ intFits ⟨some 8, some 16⟩ 7 := by decide

/-- -1; one byte when the count is omitted, two from 256 on; counts 0, one too few, and just enough. -/
theorem witness_SvNewConstructsASymbolView :
    (8 : Nat) = 8 * 2 ^ (SymWidth.swBits .byte).toNat ∧ answerOf (.svNew .byte true) (small (ints (-1) 0)) = error .domainError ∧
    ((255 : Int) < 2 ^ (8 * 1) ∧ answerOf (.svNew .byte true) (wide (ints 255 0)) = okCont 255 8) ∧
    ((256 : Int) < 2 ^ (8 * 2) ∧ (2 : Int) ^ (8 * (2 - 1)) ≤ 256 ∧
      answerOf (.svNew .byte true) (wide (ints 256 0)) = okCont 256 16) ∧
    answerOf (.svNew .byte false) (small (ints 0 0)) = error .rangeError ∧
    ((2 : Int) ^ (8 * (1 : Int).toNat) ≤ 256 ∧ answerOf (.svNew .byte false) (wide (ints 256 1)) = error .rangeError) ∧
    ((127 : Int) < 2 ^ (8 * (2 : Int).toNat) ∧ answerOf (.svNew .byte false) (small (ints 127 2)) = okCont 127 16) := by
  decide

/-- Symbols -1 and 2 of a two-byte container, and 0 and 1. -/
theorem witness_SvGetReadsASymbol :
    Container.wf ⟨0x1234, 16⟩ ∧ contFits ⟨some 8, some 16⟩ ⟨0x1234, 16⟩ ∧
    answerOf (.svGet .byte) (small (onC ⟨0x1234, 16⟩ (-1))) = error .rangeError ∧
    ((16 : Int) < (2 + 1) * 8 ∧ answerOf (.svGet .byte) (small (onC ⟨0x1234, 16⟩ 2)) = error .rangeError) ∧
    (((1 : Int) + 1) * 8 ≤ 16 ∧ answerOf (.svGet .byte) (small (onC ⟨0x1234, 16⟩ 1)) = okInt 0x12) ∧
    (0x34 : Int) = 0x1234 / 2 ^ ((0 : Int).toNat * 8) % 2 ^ 8 ∧
    answerOf (.svGet .byte) (small (onC ⟨0x1234, 16⟩ 0)) = okInt 0x34 := by decide

theorem witness_SvGetrReadsSymbols :
    Container.wf ⟨0x1234, 16⟩ ∧
    (∀ p ∈ [((0 : Int), (1 : Int)), (1, -1), (2, 0)],
      answerOf (.svGetr .byte) (small (onC ⟨0x1234, 16⟩ p.1 p.2)) = error .rangeError) ∧
    answerOf (.svGetr .byte) (small (onC ⟨0x1234, 16⟩ 1 1)) = okInt 0x12 ∧
    (0x1234 : Int) = 0x1234 / 2 ^ ((0 : Int).toNat * 8) % 2 ^ (((1 : Int) - 0 + 1).toNat * 8) ∧
    answerOf (.svGetr .byte) (wide (onC ⟨0x1234, 16⟩ 1 0)) = okInt 0x1234 := by decide

theorem witness_SvSetWritesASymbol :
    Container.wf ⟨0x1234, 16⟩ ∧
    (∀ p ∈ [((-1 : Int), (0 : Int)), (2, 0), (1, -2)],
      answerOf (.svSet .byte) (small (onC ⟨0x1234, 16⟩ p.1 p.2)) = error .rangeError) ∧
    answerOf (.svSet .byte) (wide (onC ⟨0x1234, 16⟩ 1 256)) = error .rangeError ∧
    answerOf (.svSet .byte) (wide (onC ⟨0x1234, 16⟩ 1 255)) = okCont 0xFF34 16 ∧
    answerOf (.svSet .byte) (small (onC ⟨0x1234, 16⟩ 0 (-1))) = okCont 0x12FF 16 := by decide

theorem witness_SvSetrWritesSymbols :
    Container.wf ⟨0x1234, 16⟩ ∧
    (∀ p ∈ [((0 : Int), (1 : Int), (0 : Int)), (1, -1, 0), (2, 0, 0), (1, 0, -2)],
      answerOf (.svSetr .byte) (small (onC ⟨0x1234, 16⟩ p.1 p.2.1 p.2.2)) = error .rangeError) ∧
    answerOf (.svSetr .byte) (wide (onC ⟨0x1234, 16⟩ 1 0 65536)) = error .rangeError ∧
    answerOf (.svSetr .byte) (wide (onC ⟨0x1234, 16⟩ 1 0 65535)) = okCont 0xFFFF 16 ∧
    answerOf (.svSetr .byte) (small (onC ⟨0x1234, 16⟩ 1 1 (-1))) = okCont 0xFF34 16 := by decide

theorem witness_SymbolAccessIsBitRangeAccess :
    (wide (onC ⟨0x1234, 16⟩ 1 0)).inFlight = some (onC ⟨0x1234, 16⟩ 1 0) ∧
    (wide (onC ⟨0x1234, 16⟩ 1 0)).ports = Config.reference ∧ (8 : Int) = 8 * 2 ^ (SymWidth.swBits .byte).toNat ∧
    ∃ bits : Int → Int → Int → State, ∀ h l x,
      bits h l x = { wide (onC ⟨0x1234, 16⟩ 1 0) with inFlight := some { onC ⟨0x1234, 16⟩ 1 0 with a := h, b := l, c := x } } :=
  ⟨rfl, rfl, by decide, _, fun _ _ _ => rfl⟩

theorem witness_TwoBytesAreOneHalfword :
    (onC ⟨0x1234, 16⟩ 1 0).a = 2 * 0 + 1 ∧ (onC ⟨0x1234, 16⟩ 1 0).b = 2 * 0 ∧
    answerOf (.svGetr .byte) (wide (onC ⟨0x1234, 16⟩ 1 0)) = okInt 0x1234 ∧
    answerOf (.svGet .halfword) (wide (onC ⟨0x1234, 16⟩ 0 0)) = okInt 0x1234 := by decide

/-- The widest concatenation the small ports carry. -/
theorem witness_BfCatJoinsTwoContainers :
    Container.wf ⟨0x12, 8⟩ ∧ Container.wf ⟨0x34, 8⟩ ∧ contFits ⟨some 8, some 16⟩ ⟨0x12, 8⟩ ∧
    contFits ⟨some 8, some 16⟩ ⟨0x34, 8⟩ ∧ contFits ⟨some 8, some 16⟩ ⟨0x1234, 16⟩ ∧
    answerOf .bfCat (small { onC ⟨0x12, 8⟩ with cb := ⟨0x34, 8⟩ }) = okCont 0x1234 16 := by decide

theorem witness_BfGetTakesAConcatenationApart :
    ∃ (s t : State) (q : Request) (c : Container) (sub : Int → Int → State),
      s.inFlight = some q ∧ s.ports = Config.reference ∧ exec .bfCat s = .next t ∧ t.response = some (.ret (.cont c)) ∧
      ∀ h l, sub h l = { t with inFlight := some { q with ca := c, a := h, b := l } } :=
  ⟨wide { onC ⟨0x12, 8⟩ with cb := ⟨0x34, 8⟩ }, _, _, ⟨0x1234, 16⟩, _, rfl, rfl,
    answers_of_answerOf (r := .ret (.cont ⟨0x1234, 16⟩)) (by decide), rfl, fun _ _ => rfl⟩

/-- One instruction of each constructor completes, with an OK response: the hypothesis of `ExecChangesOnlyTheResponse`,
`ResponsesAreWellFormedAndOfTheirKind` and `OperationsRaiseOnlyTheirErrors`. -/
theorem witness_exec_next : ∀ i ∈ oneOfEach,
    ((answerOf i (wide { onC ⟨0x1234, 16⟩ 1 1 1 with cb := ⟨1, 1⟩ })).any fun r => r.status = .ok) = true := by
  decide

theorem witness_exec_next_statement : ∃ (i : Instr) (s t : State) (r : Response), exec i s = .next t ∧ t.response = some r :=
  ⟨.wrap, wide (ints 8 4), _, .ret (.int (-8)), answers_of_answerOf (by decide), rfl⟩

theorem witness_ErrorsAreReportedByPriority :
    (ints (-1) 1).a < 0 ∧ (ints 5 8 8 0 (-1)).e < 0 ∧ (ints (-1) 0).b ≤ 0 ∧ decode 0x00000E06#32 = none ∧
    (wide (ints (-1) 0)).ports = Config.reference ∧ (wide (ints (-1) 0)).resetAsserted = false := by decide

theorem witness_ReferenceInstanceAnswersEveryRequest :
    (wide (ints 8 4)).inFlight = some (ints 8 4) ∧ (wide (ints 8 4)).ports = Config.reference := by decide

/-- A slot just outside its port, a payload just outside its port, and neither. -/
theorem witness_FiniteInstanceAnswersAsReferenceOrRefuses :
    (∀ q ∈ [ints 128 8, ints 127 8], answerOf .wrap { small q with ports := Config.reference } ≠ none) ∧
    operandsFit (small (ints 128 8)).ports (slotUse .wrap) (ints 128 8) = false ∧
    operandsFit (small (ints 127 8)).ports (slotUse .wrap) (ints 127 8) = true ∧
    payloadFits (small (ints 127 8)).ports (.ret (.int 127)) = true ∧
    answerOf .bfRev { small (onC ⟨1, 8⟩) with ports := Config.reference } = okInt 128 ∧
    operandsFit (small (onC ⟨1, 8⟩)).ports (slotUse .bfRev) (onC ⟨1, 8⟩) = true ∧
    payloadFits (small (onC ⟨1, 8⟩)).ports (.ret (.int 128)) = false := by decide

/-- Two requests that differ in the command word and in every slot `clip` does not read. -/
theorem witness_UnreadSlotsHaveNoEffect :
    (ints 5 8).contsRead (slotUse (.clip true)) = Request.contsRead ⟨1#32, ⟨3, 2⟩, ⟨1, 1⟩, 5, 8, 1, 2, 3⟩ (slotUse (.clip true)) ∧
    (ints 5 8).intsRead (slotUse (.clip true)) = Request.intsRead ⟨1#32, ⟨3, 2⟩, ⟨1, 1⟩, 5, 8, 1, 2, 3⟩ (slotUse (.clip true)) ∧
    ints 5 8 ≠ ⟨1#32, ⟨3, 2⟩, ⟨1, 1⟩, 5, 8, 1, 2, 3⟩ := by decide

/-- Two states that hold the same request after different histories. -/
theorem witness_ResponseDependsOnTheRequestAlone : ∃ (s s' t : State) (q : Request),
    s.inFlight = some q ∧ s'.inFlight = some q ∧ s.ports = s'.ports ∧ s.resetAsserted = false ∧ s'.resetAsserted = false ∧
    step s = .next t ∧ s ≠ s' :=
  ⟨wide { ints 8 4 with cmd := 2#32 }, { wide { ints 8 4 with cmd := 2#32 } with vars := [(1, .int 1)], pos := 3 }, _, _, rfl, rfl,
    rfl, rfl, rfl, rfl, by decide⟩

theorem witness_WritesKeepTheWidth : ∃ (s t : State) (q : Request) (p : Payload),
    s.inFlight = some q ∧ exec .bfSet s = .next t ∧ t.response = some (.ret p) :=
  ⟨small (onC ⟨9, 4⟩ 2 1 3), _, _, .cont ⟨15, 4⟩, rfl, answers_of_answerOf (by decide), rfl⟩

/-- An instruction that completes, and one that is refused. -/
theorem witness_StepRunsTheDecodedInstruction :
    (small { ints 127 8 with cmd := 2#32 }).resetAsserted = false ∧ decode 0x00000002#32 = some .wrap ∧
    answerOf .wrap (small { ints 127 8 with cmd := 2#32 }) = okInt 127 ∧
    refusalOf .wrap (small { ints 128 8 with cmd := 2#32 }) = some .operandOutsidePort := by decide

/-- A line whose payload goes to variable 1: received with OK, and not received with an error. -/
def received (r : Response) : State :=
  { State.reset.withProgram [assemble (some 1) (.wrap (.lit 8) (.lit 4))] with vars := [(1, .int 0), (2, .int 5)], response := some r }

theorem witness_ReceivedPayloadGoesToTheDestinationOnly :
    (∀ r ∈ [Response.ret (.int (-8)), .raise .rangeError], VarsWf (received r).vars ∧
      (received r).program[(received r).pos]? = some (assemble (some 1) (.wrap (.lit 8) (.lit 4))) ∧
      (received r).response = some r) ∧
    (assemble (some 1) (.wrap (.lit 8) (.lit 4))).dst = some 1 ∧ (some 1 : Option VarName) ≠ some 2 ∧
    Status.rangeError ≠ .ok := by decide

theorem witness_IllegalWordIsAnsweredIllegalCommand :
    (small { ints 5 8 with cmd := 0x00000102#32 }).resetAsserted = false ∧
    ∀ r ∈ opcodeTable, 0x00000102#32 &&& r.mask ≠ r.pattern := by
  refine ⟨rfl, ?_⟩
  simp [opcodeTable, quantRows, bitfieldRows, symbolRows]

/-- A requester about to issue line 0. -/
def idle (l : Line) (vars : List (VarName × Payload)) : State := { State.reset.withProgram [l] with vars := vars }

def clipLine : Line := assemble (some 1) (.clip false (.var 7) (.lit 8))

/-- A line that is issued, and ones that meet each program fault. -/
theorem witness_LineIssuesItsRequestOrFaults :
    (∀ vars ∈ [[(7, Payload.int 5)], [], [(7, .list [])]], (idle clipLine vars).resetAsserted = false ∧
      (idle clipLine vars).inFlight = none ∧ (idle clipLine vars).program[(idle clipLine vars).pos]? = some clipLine ∧
      (idle clipLine vars).shared = []) ∧
    step (idle clipLine [(7, .int 5)]) =
      .next { idle clipLine [(7, .int 5)] with inFlight := some { ints 5 8 with cmd := 1#32 } } ∧
    step (idle clipLine []) = .fault (.unsetVariable 7) ∧ step (idle clipLine [(7, .list [])]) = .fault (.wrongKind 7) :=
  ⟨by decide, rfl, rfl, rfl⟩

theorem witness_SharedVariableIsRefused :
    ({ idle clipLine [] with shared := [7] } : State).inFlight = none ∧ 7 ∈ clipLine.names ∧
    7 ∈ ({ idle clipLine [] with shared := [7] } : State).shared := by decide

theorem witness_NoRequestIsAcceptedBeforeTheResponse : ∃ (s t : State) (q : Request),
    s.resetAsserted = false ∧ s.inFlight = some q ∧ step s = .next t :=
  ⟨wide { ints 8 4 with cmd := 2#32 }, _, _, rfl, rfl, rfl⟩

theorem witness_EveryLineIsAnsweredInTwoSteps :
    (idle clipLine [(7, .int 5)]).inFlight = none ∧ (idle clipLine [(7, .int 5)]).ports = Config.reference ∧
    (idle clipLine [(7, .int 5)]).shared = [] ∧ readLine [(7, .int 5)] clipLine = .ok { ints 5 8 with cmd := 1#32 } :=
  ⟨rfl, rfl, rfl, rfl⟩

theorem witness_ResetDropsTheRequestAndTheVariables :
    ({ received (.raise .rangeError) with inFlight := some (ints 8 4), resetAsserted := true } : State).resetAsserted = true := by
  decide

/-- A sound state that steps: a variable holds a value and line 0's request is in flight, and it is that line's (so the
witness of `StepKeepsRequestAndLineMatched` too). -/
theorem witness_StepKeepsSoundStates : ∃ s t : State,
    s.Sound ∧ s.FlightMatchesLine ∧ s.vars ≠ [] ∧ s.inFlight ≠ none ∧ step s = .next t := by
  refine ⟨{ idle clipLine [(7, .int 5)] with inFlight := some { ints 5 8 with cmd := 1#32 } }, _, ⟨?_, ?_, ?_, rfl⟩, ?_, by decide,
    by decide, rfl⟩
  · exact List.pairwise_singleton _ _
  · intro x p h
    simp only [idle, lookup] at h
    split at h <;> cases h
    trivial
  · intro r h
    cases h
  · intro q h
    cases h
    exact ⟨clipLine, rfl, rfl⟩

theorem witness_StepKeepsPortsAndProgram : ∃ t : State, step (received (.raise .rangeError)) = .next t := ⟨_, rfl⟩

end Sys2Proof.Tests
end

/-! ## The scope of the model (00_scope.md): sound states, the kinds of responses, the ports -/

section
namespace Sys2Proof.Machine

/-! ### Responses and their kinds (R13, R17, R42) -/

/-- A payload that a rule's response carries is well-formed and of the rule's kind. -/
theorem AnswersWithin.payload {k : PayloadKind} {errors : List Status} {r : Response}
    (h : AnswersWithin k errors r) {p : Payload} (hp : r.payload = some p) : p.wf ∧ p.kind = k := by
  rcases h with ⟨p', rfl, hwf, hkind⟩ | ⟨e, -, -, rfl⟩
  · cases hp
    exact ⟨hwf, hkind⟩
  · cases hp

/-- Settles O39: the response is the rule's (`exec_next`), and `rule_within` says what every rule answers. -/
theorem responsesAreWellFormedAndOfTheirKind : Obligations.ResponsesAreWellFormedAndOfTheirKind := by
  intro i s t h
  obtain ⟨q, -, -, -, rfl⟩ := exec_next h
  have hr := rule_within i q
  exact ⟨ruleOf i q, rfl, hr.wf.1, fun _ hp => hr.payload hp⟩

/-! ### Reference ports and finite ports (R8, R14) -/

/-- Settles O43: unbounded ports carry every slot and every payload, so the rule's response is answered. -/
theorem referenceInstanceAnswersEveryRequest : Obligations.ReferenceInstanceAnswersEveryRequest := by
  intro i s q hq hports
  exact ⟨ruleOf i q, (answers_reference hq hports).2 rfl⟩

/-- Settles O44: the answer with reference ports is the rule's response, and the rule does not depend on the ports, so
`answer` at `s` ends in one of its three ways with that same response. -/
theorem finiteInstanceAnswersAsReferenceOrRefuses : Obligations.FiniteInstanceAnswersAsReferenceOrRefuses := by
  intro i s q r hq href
  obtain rfl : r = ruleOf i q := (answers_reference (s := { s with ports := Config.reference }) hq rfl).1 href
  refine ⟨fun ho => ?_, fun ho hp => ?_, fun ho hp => answers_of_rule hq ho hp rfl⟩
  · rw [exec_eq_answer, answer_operandOutside hq ho]
  · rw [exec_eq_answer, answer_payloadOutside hq ho hp]

/-! ### What every step keeps (R8, R13, R17, R21, R37, R49) -/

theorem writeBack_keeps_varsWf {vars : List (VarName × Payload)} (h : VarsWf vars) (dst : Option VarName)
    (r : Response) : VarsWf (writeBack dst r vars) := by
  rcases writeBack_cases dst r vars with e | ⟨x, p, -, -, -, e⟩ <;> rw [e]
  · exact h
  · exact store_keeps_wf h x p

theorem writeBack_keeps_values_wf {vars : List (VarName × Payload)} (h : ∀ x p, lookup x vars = some p → p.wf)
    {r : Response} (hr : r.wf) (dst : Option VarName) :
    ∀ x p, lookup x (writeBack dst r vars) = some p → p.wf := by
  rcases writeBack_cases dst r vars with e | ⟨y, q, -, -, hq, e⟩ <;> rw [e]
  · exact h
  · exact store_values_wf h (hr.2 q hq)

/-- Reset leaves no variable, no response and no status to be unsound. -/
theorem takeReset_sound (s : State) : (takeReset s).Sound where
  canonical := .nil
  values _ _ h := nomatch h
  delivered _ h := nomatch h
  counted := rfl

/-- Receiving a well-formed response keeps a sound state sound: its payload is what is stored, and its status is counted
with the line passed. -/
theorem receive_deliver_sound {s : State} (h : s.Sound) {r : Response} (hr : r.wf) :
    (receive (s.deliver r)).Sound := by
  obtain ⟨hcanon, hvals, -, hcount⟩ := h
  rw [receive_deliver]
  exact {
    canonical := writeBack_keeps_varsWf hcanon s.destination r
    values := writeBack_keeps_values_wf hvals hr s.destination
    delivered := fun r' h' => Option.some.inj h' ▸ hr
    counted := by simp [hcount] }

/-- Soundness does not speak of the request in flight, so placing one keeps it. -/
theorem State.Sound.withInFlight {s : State} (h : s.Sound) (q : Option Request) : { s with inFlight := q }.Sound :=
  ⟨h.canonical, h.values, h.delivered, h.counted⟩

/-- Settles O57, by the cases of the step: reset, a response received, a line issued, the program's end. -/
theorem stepKeepsSoundStates : Obligations.StepKeepsSoundStates := by
  intro s t hs h
  rcases step_cases h with ⟨-, rfl⟩ | ⟨-, q, r, -, hr, rfl⟩ | ⟨-, -, l, q, -, -, rfl⟩ | ⟨-, -, -, rfl⟩
  · exact takeReset_sound s
  · exact receive_deliver_sound hs hr
  · exact hs.withInFlight (some q)
  · exact hs

/-- Settles O60, by the cases of the step: neither reset nor receiving a response nor issuing a line writes them. -/
theorem stepKeepsPortsAndProgram : Obligations.StepKeepsPortsAndProgram := by
  intro s t h
  rcases step_cases h with ⟨-, rfl⟩ | ⟨-, q, r, -, -, rfl⟩ | ⟨-, -, l, q, -, -, rfl⟩ | ⟨-, -, -, rfl⟩
  · simp
  · simp
  · exact ⟨rfl, rfl, rfl⟩
  · exact ⟨rfl, rfl, rfl⟩

/-! ### The state after reset (R26, R89, R90) -/

/-- Settles O56: each field is reset's own, and an empty store gives no variable a value. -/
theorem stateAfterReset : Obligations.StateAfterReset :=
  ⟨rfl, rfl, lookup_nil, rfl⟩

end Sys2Proof.Machine
end

/-! ## The state of the core and of the requester (10_state.md): frames, noninterference, the variables -/

section
namespace Sys2Proof.Machine

/-! ### The frame of an instruction (R17, R25, R33, R79, R92) -/

/-- Settles O38: the next state is the rule's response delivered (`exec_next`), and `deliver` writes two fields only. -/
theorem execChangesOnlyTheResponse : Obligations.ExecChangesOnlyTheResponse := by
  intro i s t h
  obtain ⟨q, -, -, -, rfl⟩ := exec_next h
  exact ⟨ruleOf i q, by simp⟩

/-! ### Slots that are not read (R16, R43) -/

/-- The request whose slots, from `ca` and from `a` on, hold the listed values, and 0 where a list has ended. No rule
reads the command word. -/
def Request.ofSlots (conts : List Container) (ints : List Int) : Request where
  cmd := 0
  ca := conts.getD 0 ⟨0, 0⟩
  cb := conts.getD 1 ⟨0, 0⟩
  a := ints.getD 0 0
  b := ints.getD 1 0
  c := ints.getD 2 0
  d := ints.getD 3 0
  e := ints.getD 4 0

/-- Each rule is a function of the slots that R43 lists for its operation. `round` and `uround` read `c` only with
`CLP = 1`, `bf.new` and `sv.new` read `b` only with `WOMIT = 0`; the other rules name just the slots listed. -/
theorem ruleOf_eq_ruleOf_readSlots (i : Instr) (q : Request) :
    ruleOf i q = ruleOf i (.ofSlots (q.contsRead (slotUse i)) (q.intsRead (slotUse i))) := by
  cases i with
  | round dir clp => cases clp <;> rfl
  | uround dir clp => cases clp <;> rfl
  | bfNew womit => cases womit <;> rfl
  | svNew sw womit => cases womit <;> rfl
  | _ => rfl

theorem ruleOf_eq_of_readSlots_eq {i : Instr} {q q' : Request}
    (hconts : q.contsRead (slotUse i) = q'.contsRead (slotUse i))
    (hints : q.intsRead (slotUse i) = q'.intsRead (slotUse i)) : ruleOf i q = ruleOf i q' := by
  rw [ruleOf_eq_ruleOf_readSlots i q, hconts, hints, ← ruleOf_eq_ruleOf_readSlots]

theorem operandsFit_eq_of_readSlots_eq {u : SlotUse} {q q' : Request} (hconts : q.contsRead u = q'.contsRead u)
    (hints : q.intsRead u = q'.intsRead u) (p : Config.Ports) : operandsFit p u q = operandsFit p u q' := by
  rw [operandsFit, hconts, hints, operandsFit]

/-- What an instruction answers to a request known to be in flight. -/
theorem answers_inFlight_iff {i : Instr} {s : State} {q : Request} {r : Response} (hq : s.inFlight = some q) :
    Answers i s r ↔
      operandsFit s.ports (slotUse i) q = true ∧ payloadFits s.ports r = true ∧ r = ruleOf i q := by
  simp [answers_iff, hq]

/-- Settles O45: the port test and the rule, of which an answer consists, see the read slots only. -/
theorem unreadSlotsHaveNoEffect : Obligations.UnreadSlotsHaveNoEffect := by
  rintro i s _ q q' r hq rfl hconts hints
  rw [answers_inFlight_iff hq, answers_inFlight_iff (q := q') rfl, ruleOf_eq_of_readSlots_eq hconts hints,
    operandsFit_eq_of_readSlots_eq hconts hints]

/-! ### The request alone decides the response (R25, R35) -/

theorem thenReceive_eq_next {o : Host.Outcome State Fault Refusal} {t : State} :
    thenReceive o = .next t ↔ ∃ u, o = .next u ∧ t = receive u := by
  cases o <;> simp [thenReceive, eq_comm]

/-- An instruction reads the request and the ports, and nothing else of the state. -/
theorem exec_next_of_same_request {i : Instr} {s s' t : State} (hq : s.inFlight = s'.inFlight)
    (hp : s.ports = s'.ports) (h : exec i s = .next t) :
    ∃ r, t = s.deliver r ∧ exec i s' = .next (s'.deliver r) := by
  obtain ⟨q, hs, ho, hpay, rfl⟩ := exec_next h
  rw [hq] at hs
  rw [hp] at ho hpay
  exact ⟨ruleOf i q, rfl, by rw [exec_eq_answer, answer_fits hs ho hpay]⟩

/-- So does the answer to a command word, whether the word names an operation or not. -/
theorem answerWord_next_of_same_request {w : Word} {s s' t : State} (hq : s.inFlight = s'.inFlight)
    (hp : s.ports = s'.ports) (h : answerWord w s = .next t) :
    ∃ r, t = receive (s.deliver r) ∧ answerWord w s' = .next (receive (s'.deliver r)) := by
  unfold answerWord at h ⊢
  cases hd : decode w with
  | none =>
    rw [hd] at h
    cases h
    exact ⟨.raise .illegalCommand, rfl, rfl⟩
  | some i =>
    rw [hd] at h
    obtain ⟨u, hu, rfl⟩ := thenReceive_eq_next.1 h
    obtain ⟨r, rfl, hs'⟩ := exec_next_of_same_request hq hp hu
    exact ⟨r, rfl, thenReceive_eq_next.2 ⟨_, hs', rfl⟩⟩

/-- Settles O46: both steps answer the same word, with the same request and ports. -/
theorem responseDependsOnTheRequestAlone : Obligations.ResponseDependsOnTheRequestAlone := by
  intro s s' t q hq hq' hp hr hr' h
  rw [step_of_inFlight hr hq] at h
  obtain ⟨r, rfl, hs'⟩ := answerWord_next_of_same_request (hq.trans hq'.symm) hp h
  exact ⟨_, (step_of_inFlight hr' hq').trans hs', by simp⟩

/-- Settles O53: a step with a request in flight answers its word, and the response is delivered and received
(`answerWord_next`); nothing is issued in that step. -/
theorem noRequestIsAcceptedBeforeTheResponse : Obligations.NoRequestIsAcceptedBeforeTheResponse := by
  intro s t q hr hq h
  rw [step_of_inFlight hr hq] at h
  obtain ⟨r, -, rfl⟩ := answerWord_next h
  rw [receive_deliver]
  exact ⟨rfl, rfl, r, rfl, rfl, rfl⟩

/-! ### The width of a written container (R22) -/

/-- Whatever payload the response returns is a container as wide as `c`. -/
def ReturnsWidthOf (c : Container) (r : Response) : Prop := ∀ p, r = .ret p → ∃ d, p = .cont ⟨d, c.width⟩

theorem returnsWidthOf_raise (c : Container) (e : Status) : ReturnsWidthOf c (.raise e) := fun _ h => nomatch h

theorem returnsWidthOf_ret (c : Container) (d : Int) : ReturnsWidthOf c (.ret (.cont ⟨d, c.width⟩)) :=
  fun _ h => ⟨d, by cases h; rfl⟩

theorem returnsWidthOf_checked {c : Container} {r : Response} (h : ReturnsWidthOf c r) :
    ReturnsWidthOf c (checked c r) := by
  unfold checked
  split
  · exact h
  · exact returnsWidthOf_raise c _

/-- A guard that raises an error returns no payload. -/
theorem returnsWidthOf_guard {c : Container} {e : Status} {r : Response} (P : Prop) [Decidable P]
    (h : ReturnsWidthOf c r) : ReturnsWidthOf c (if P then .raise e else r) := by
  split
  · exact returnsWidthOf_raise c e
  · exact h

theorem returnsWidthOf_writeRange (c : Container) (h l : Nat) (x : Int) : ReturnsWidthOf c (writeRange c h l x) := by
  unfold writeRange
  split
  · exact returnsWidthOf_ret c _
  · exact returnsWidthOf_raise c _

/-- The four writes. Past the check and the guards, `bf.setbit` returns its container itself, the others by
`writeRange`. -/
theorem rule_returnsWidthOf_ca {i : Instr} {sw : SymWidth} (hi : i ∈ [.bfSetbit, .bfSet, .svSet sw, .svSetr sw])
    (q : Request) : ReturnsWidthOf q.ca (ruleOf i q) := by
  simp only [List.mem_cons, List.not_mem_nil, or_false] at hi
  rcases hi with rfl | rfl | rfl | rfl
  · exact returnsWidthOf_checked <| returnsWidthOf_guard _ <| returnsWidthOf_guard _ <| returnsWidthOf_ret _ _
  · exact returnsWidthOf_checked <| returnsWidthOf_guard _ <| returnsWidthOf_guard _ <|
      returnsWidthOf_writeRange _ _ _ _
  · exact returnsWidthOf_checked <| returnsWidthOf_guard _ <| returnsWidthOf_writeRange _ _ _ _
  · exact returnsWidthOf_checked <| returnsWidthOf_guard _ <| returnsWidthOf_guard _ <|
      returnsWidthOf_writeRange _ _ _ _

/-- Settles O47: the payload delivered is the rule's. -/
theorem writesKeepTheWidth : Obligations.WritesKeepTheWidth := by
  intro i s t q sw p hq hi h hp
  obtain ⟨q', hq', -, -, rfl⟩ := exec_next h
  obtain rfl : q = q' := Option.some.inj (hq.symm.trans hq')
  exact rule_returnsWidthOf_ca hi q p (Option.some.inj hp)

/-! ### The variables after a response (R21, R49, R79, R92) -/

theorem State.destination_of_line {s : State} {l : Line} (h : s.program[s.pos]? = some l) :
    s.destination = l.dst := by
  simp [State.destination, h]

theorem receive_of_response {s : State} {r : Response} (h : s.response = some r) :
    receive s = { s with
      statuses := s.statuses ++ [r.status]
      vars := writeBack s.destination r s.vars
      pos := s.pos + 1 } := by
  simp [receive, h]

/-- An OK payload is the destination's new value. -/
theorem lookup_writeBack_ret (x : VarName) (p : Payload) (vars : List (VarName × Payload)) :
    lookup x (writeBack (some x) (.ret p) vars) = some p := lookup_store_same x p vars

/-- An error leaves every variable alone, and any response leaves alone a variable that is not the destination. -/
theorem lookup_writeBack_unchanged {dst : Option VarName} {r : Response} {x : VarName}
    (h : r.status ≠ .ok ∨ dst ≠ some x) (vars : List (VarName × Payload)) :
    lookup x (writeBack dst r vars) = lookup x vars := by
  rcases writeBack_cases dst r vars with e | ⟨y, p, rfl, hok, -, e⟩ <;> rw [e]
  have hxy : x ≠ y := by
    rintro rfl
    exact h.elim (· hok) (· rfl)
  exact lookup_store_other hxy p vars

/-- Settles O49: the new variables are the old ones with the response written back to the line's destination. -/
theorem receivedPayloadGoesToTheDestinationOnly : Obligations.ReceivedPayloadGoesToTheDestinationOnly := by
  rintro s _ l r x hvars hl hresp rfl
  rw [receive_of_response hresp, State.destination_of_line hl]
  refine ⟨rfl, rfl, writeBack_keeps_varsWf hvars l.dst r, ?_, fun h => lookup_writeBack_unchanged h s.vars⟩
  rintro p rfl hdst
  rw [hdst]
  exact lookup_writeBack_ret x p s.vars

/-! ### The state after reset (R26, R90) -/

/-- Settles O58: the reset state is what reset makes of itself, and whatever reset makes is sound. -/
theorem resetStateIsSound : Obligations.ResetStateIsSound := takeReset_sound State.reset

end Sys2Proof.Machine
end

/-! ## The variables and the order of requests (20_memory.md): symbols over bytes, lines, shared variables -/

section
namespace Sys2Proof.Machine

/-! ### Two bytes and the halfword they make (R28, R70, R71) -/

/-- Byte `2k + 1` and halfword `k` end at the same bit. -/
theorem symbolTop_byte_odd (k : Int) :
    symbolTop (symbolBits .byte) (2 * k + 1) = symbolTop (symbolBits .halfword) k := by
  simp only [symbolTop, symbolBits]
  omega

/-- Byte `2k` and halfword `k` begin at the same bit. -/
theorem symbolBottom_byte_even (k : Int) :
    symbolBottom (symbolBits .byte) (2 * k) = symbolBottom (symbolBits .halfword) k := by
  simp only [symbolBottom, symbolBits]
  omega

/-- Bytes `2k + 1` down to `2k` are addressable in the same containers as halfword `k`. -/
theorem bytePair_outside_iff (k w : Int) :
    (2 * k < 0 ∨ (2 * k + 1 + 1) * (symbolBits .byte : Int) > w) ↔
      (k < 0 ∨ (k + 1) * (symbolBits .halfword : Int) > w) := by
  simp only [symbolBits]
  omega

/-- The two rules agree, errors included: the byte order is never wrong, the guards agree, and so do the bits read. -/
theorem svGetrRule_byte_eq_svGetRule_halfword {q : Request} {k : Int} (ha : q.a = 2 * k + 1) (hb : q.b = 2 * k) :
    svGetrRule .byte q = svGetRule .halfword { q with a := k } := by
  have hordered : ¬ 2 * k + 1 < 2 * k := by omega
  simp only [svGetrRule, svGetRule, ha, hb, if_neg hordered, bytePair_outside_iff, symbolTop_byte_odd,
    symbolBottom_byte_even]

/-- Settles O35: with reference ports each side answers its rule's response, and the rules agree. -/
theorem twoBytesAreOneHalfword : Obligations.TwoBytesAreOneHalfword := by
  rintro s _ q k r hq hports ha hb rfl
  have hrules : ruleOf (.svGetr .byte) q = ruleOf (.svGet .halfword) { q with a := k } :=
    svGetrRule_byte_eq_svGetRule_halfword ha hb
  rw [answers_reference hq hports, hrules]
  exact Iff.symm (answers_reference rfl hports)

/-! ### Issuing a line and answering it (R35, R49, R95) -/

/-- An idle requester issues the line that is due. -/
theorem step_of_line {s : State} {l : Line} (hr : s.resetAsserted = false) (hq : s.inFlight = none)
    (hl : s.program[s.pos]? = some l) : step s = issue l s := by
  rw [step_of_idle hr hq, issueNext, hl]

/-- With reference ports every command word is answered, whether it names an operation or not. -/
theorem answerWord_reference {s : State} {q : Request} (hq : s.inFlight = some q) (hp : s.ports = Config.reference)
    (w : Word) : ∃ r, answerWord w s = .next (receive (s.deliver r)) := by
  unfold answerWord
  cases decode w with
  | none => exact ⟨.raise .illegalCommand, rfl⟩
  | some i =>
    have h : exec i s = .next (s.deliver (ruleOf i q)) := (answers_reference hq hp).2 rfl
    exact ⟨ruleOf i q, thenReceive_eq_next.2 ⟨_, h, rfl⟩⟩

/-- A run of two steps. -/
theorem run_two {s t u : State} (h : step s = .next t) (h' : step t = .next u) :
    Sys2Proof.core.run 2 s = .next u := by
  have hs : Sys2Proof.core.step s = .next t := h
  have ht : Sys2Proof.core.step t = .next u := h'
  simp only [Host.Core.run, hs, ht]

/-- Settles O54: the first step puts the line's request in flight, the second answers it, and receiving the response
passes the line. -/
theorem everyLineIsAnsweredInTwoSteps : Obligations.EveryLineIsAnsweredInTwoSteps := by
  intro s l q hr hq hp hshared hl hread
  have hissue : step s = .next { s with inFlight := some q } := by
    rw [step_of_line hr hq hl, issue_of_nothing_shared l hshared, hread]
  obtain ⟨r, hanswer⟩ := answerWord_reference (s := { s with inFlight := some q }) rfl hp q.cmd
  rw [← step_of_inFlight (s := { s with inFlight := some q }) hr rfl] at hanswer
  refine ⟨_, run_two hissue hanswer, ?_⟩
  simp [receive_deliver]

/-! ### The request in flight and its line (R35, R49) -/

theorem State.flightMatchesLine_of_idle {s : State} (h : s.inFlight = none) : s.FlightMatchesLine := by
  intro q hq
  cases h.symm.trans hq

/-- Settles O59, by the cases of the step: after reset or a response no request is in flight, an issued request is the
line's by what issuing does, and past the program's end nothing changes. -/
theorem stepKeepsRequestAndLineMatched : Obligations.StepKeepsRequestAndLineMatched := by
  intro s t hs h
  rcases step_cases h with ⟨-, rfl⟩ | ⟨-, q, r, -, -, rfl⟩ | ⟨-, -, l, q, hl, hread, rfl⟩ | ⟨-, -, -, rfl⟩
  · exact State.flightMatchesLine_of_idle (takeReset_inFlight s)
  · exact State.flightMatchesLine_of_idle (receive_inFlight (s.deliver r))
  · intro q' hq'
    obtain rfl : q = q' := Option.some.inj hq'
    exact ⟨l, hl, hread⟩
  · exact hs

/-! ### Shared variables (R38, R94) -/

/-- Issuing a line that names a shared variable is refused, for the first such variable. -/
theorem issue_of_shared {s : State} {l : Line} {x : VarName} (hx : x ∈ l.names) (hshared : x ∈ s.shared) :
    ∃ y, y ∈ s.shared ∧ issue l s = .refused (.sharedVariable y) := by
  have hsome : (l.names.find? (fun y => s.shared.contains y)).isSome := by
    rw [List.find?_isSome]
    exact ⟨x, hx, List.contains_iff_mem.2 hshared⟩
  obtain ⟨y, hy⟩ := Option.isSome_iff_exists.1 hsome
  refine ⟨y, List.contains_iff_mem.1 (List.find?_some hy), ?_⟩
  unfold issue
  rw [hy]

/-- Settles O52: the step of an idle requester issues the line, which is refused. -/
theorem sharedVariableIsRefused : Obligations.SharedVariableIsRefused := by
  intro s l x hr hq hl hx hshared
  rw [step_of_line hr hq hl]
  exact issue_of_shared hx hshared

end Sys2Proof.Machine
end

/-! ## Encoding (30_encoding.md): the opcode map, decoding and encoding, the assembler forms, issuing a line -/

section
namespace Sys2Proof

/-! ### Fields and their places in the word (R39 to R41) -/

/-- Reading a direction and writing it back restores the field, also the value `0b11` that names no policy. -/
@[simp] theorem Dir.bits_ofBits : ∀ b : BitVec 2, (Dir.ofBits b).bits = b := by decide

@[simp] theorem SymWidth.swBits_ofBits : ∀ b : BitVec 2, (SymWidth.ofBits b).swBits = b := by decide

/-- A field of `k` bits, cut out at bit `n` and put back there, is the word under the mask of those bits. -/
theorem extractLsb'_shiftLeft (w : Word) (n k : Nat) :
    (w.extractLsb' n k).setWidth 32 <<< n = w &&& ((BitVec.allOnes k).setWidth 32 <<< n) := by
  ext i hi
  by_cases h : i < n
  · simp [h]
  · have hplace : n + (i - n) = i := by omega
    simp [h, hplace, ← BitVec.getLsbD_eq_getElem hi, Bool.and_assoc, Bool.and_left_comm, Bool.and_comm]

theorem flagAt_getLsbD (w : Word) (n : Nat) : flagAt n (w.getLsbD n) = w &&& flagAt n true := by
  have hbit : BitVec.ofBool (w.getLsbD n) = w.extractLsb' n 1 := by
    ext i hi
    obtain rfl : i = 0 := by omega
    simp
  rw [flagAt, hbit]
  exact extractLsb'_shiftLeft w n 1

theorem pairAt_extractLsb' (w : Word) (n : Nat) : pairAt n (w.extractLsb' n 2) = w &&& pairAt n 0b11#2 :=
  extractLsb'_shiftLeft w n 2

/-! ### The rows of the opcode map (R42, R44) -/

theorem OpcodeRow.fits_iff {r : OpcodeRow} {w : Word} : r.fits w = true ↔ w &&& r.mask = r.pattern := beq_iff_eq

/-- Any two rows ask for different values in the bits that both of them fix. -/
theorem opcodeTable_patterns_conflict :
    opcodeTable.Pairwise fun r r' => r.pattern &&& r'.mask ≠ r'.pattern &&& r.mask := by decide

/-- A word that fits two rows shows both patterns alike in the bits that both rows fix. -/
theorem patterns_agree_of_fit {w m p m' p' : Word} (h : w &&& m = p) (h' : w &&& m' = p') : p &&& m' = p' &&& m := by
  subst h h'
  rw [BitVec.and_assoc, BitVec.and_comm m m', ← BitVec.and_assoc]

theorem opcodeTable_fits_one (w : Word) :
    opcodeTable.Pairwise fun r r' => ¬ (w &&& r.mask = r.pattern ∧ w &&& r'.mask = r'.pattern) :=
  opcodeTable_patterns_conflict.imp fun hne ⟨h, h'⟩ => hne (patterns_agree_of_fit h h')

/-- The row builds instructions whose opcode is its pattern and whose mode fields are the word's bits outside its mask: no
bit that the row leaves free is dropped, and no field is read from a bit that it fixes. -/
def OpcodeRow.KeepsFreeBits (r : OpcodeRow) : Prop :=
  ∀ w : Word, (r.build w).opcode = r.pattern ∧ (r.build w).modeBits = w &&& ~~~r.mask

/-- A row of an operation without mode fields fixes every bit. -/
theorem keepsFreeBits_of_noField {i : Instr} (h : i.modeBits = 0#32) :
    OpcodeRow.KeepsFreeBits ⟨0xFFFFFFFF#32, i.opcode, fun _ => i⟩ := by
  refine fun w => ⟨rfl, ?_⟩
  calc i.modeBits = 0#32 := h
    _ = w &&& 0#32 := BitVec.and_zero.symm
    _ = w &&& ~~~0xFFFFFFFF#32 := rfl

/-- The mode fields of `round` and `uround`. -/
theorem dirField_clpField_eq (w : Word) :
    pairAt 9 (Dir.ofBits w.dirField).bits ||| flagAt 11 w.clpField = w &&& ~~~0xFFFFF1FF#32 := by
  rw [Dir.bits_ofBits, Word.dirField, Word.clpField, pairAt_extractLsb', flagAt_getLsbD, ← BitVec.and_or_distrib_left]
  rfl

/-- The mode fields of `requant`. -/
theorem dirField_rlsbField_cmsbField_eq (w : Word) :
    pairAt 9 (Dir.ofBits w.dirField).bits ||| flagAt 12 w.rlsbField ||| flagAt 13 w.cmsbField =
      w &&& ~~~0xFFFFC9FF#32 := by
  rw [Dir.bits_ofBits, Word.dirField, Word.rlsbField, Word.cmsbField, pairAt_extractLsb', flagAt_getLsbD,
    flagAt_getLsbD, ← BitVec.and_or_distrib_left, ← BitVec.and_or_distrib_left]
  rfl

/-- The mode fields of `sv.new`. -/
theorem swField_womitField_eq (w : Word) :
    pairAt 16 (SymWidth.ofBits w.swField).swBits ||| flagAt 14 w.womitField = w &&& ~~~0xFFFCBFFF#32 := by
  rw [SymWidth.swBits_ofBits, Word.swField, Word.womitField, pairAt_extractLsb', flagAt_getLsbD,
    ← BitVec.and_or_distrib_left]
  rfl

/-- The mode field of the symbol accesses. -/
theorem swField_eq (w : Word) : pairAt 16 (SymWidth.ofBits w.swField).swBits = w &&& ~~~0xFFFCFFFF#32 := by
  rw [SymWidth.swBits_ofBits]
  exact pairAt_extractLsb' w 16

theorem quantRows_keepFreeBits : ∀ r ∈ quantRows, r.KeepsFreeBits := by
  intro r hr
  simp only [quantRows, List.mem_cons, List.not_mem_nil, or_false] at hr
  rcases hr with rfl | rfl | rfl | rfl | rfl | rfl
  · exact fun w => ⟨rfl, flagAt_getLsbD w 8⟩
  · exact keepsFreeBits_of_noField rfl
  · exact fun w => ⟨rfl, dirField_clpField_eq w⟩
  · exact fun w => ⟨rfl, dirField_clpField_eq w⟩
  · exact fun w => ⟨rfl, flagAt_getLsbD w 8⟩
  · exact fun w => ⟨rfl, dirField_rlsbField_cmsbField_eq w⟩

theorem bitfieldRows_keepFreeBits : ∀ r ∈ bitfieldRows, r.KeepsFreeBits := by
  intro r hr
  rw [bitfieldRows, List.mem_cons] at hr
  rcases hr with rfl | hr
  · exact fun w => ⟨rfl, flagAt_getLsbD w 14⟩
  · simp only [List.mem_cons, List.not_mem_nil, or_false] at hr
    rcases hr with rfl | rfl | rfl | rfl | rfl | rfl | rfl | rfl <;> exact keepsFreeBits_of_noField rfl

theorem symbolRows_keepFreeBits : ∀ r ∈ symbolRows, r.KeepsFreeBits := by
  intro r hr
  simp only [symbolRows, List.mem_cons, List.not_mem_nil, or_false] at hr
  rcases hr with rfl | rfl | rfl | rfl | rfl | rfl
  · exact fun w => ⟨rfl, swField_womitField_eq w⟩
  · exact fun w => ⟨rfl, swField_eq w⟩
  · exact fun w => ⟨rfl, swField_eq w⟩
  · exact fun w => ⟨rfl, swField_eq w⟩
  · exact fun w => ⟨rfl, swField_eq w⟩
  · exact keepsFreeBits_of_noField rfl

theorem opcodeTable_keepsFreeBits {r : OpcodeRow} (hr : r ∈ opcodeTable) : r.KeepsFreeBits := by
  simp only [opcodeTable, List.mem_append] at hr
  rcases hr with (hr | hr) | hr
  · exact quantRows_keepFreeBits r hr
  · exact bitfieldRows_keepFreeBits r hr
  · exact symbolRows_keepFreeBits r hr

/-! ### Decoding and encoding (R44, R45) -/

/-- Decoding goes through a row that fits. -/
theorem exists_row_of_decode {w : Word} {i : Instr} (h : decode w = some i) :
    ∃ r ∈ opcodeTable, w &&& r.mask = r.pattern ∧ r.build w = i := by
  obtain ⟨r, hfind, hbuild⟩ := Option.map_eq_some_iff.1 h
  have hfits : r.fits w = true := List.find?_some (p := fun r : OpcodeRow => r.fits w) hfind
  exact ⟨r, List.mem_of_find?_eq_some hfind, OpcodeRow.fits_iff.1 hfits, hbuild⟩

/-- Any row that fits is the one that decodes: a row before it would fit as well. -/
theorem decode_of_row_fits {r : OpcodeRow} {w : Word} (hr : r ∈ opcodeTable) (hw : w &&& r.mask = r.pattern) :
    decode w = some (r.build w) := by
  obtain ⟨before, after, htable⟩ := List.append_of_mem hr
  have hdisjoint := opcodeTable_fits_one w
  rw [htable, List.pairwise_append] at hdisjoint
  have hfind : opcodeTable.find? (·.fits w) = some r := by
    rw [List.find?_eq_some_iff_append]
    refine ⟨OpcodeRow.fits_iff.2 hw, before, after, htable, fun r' hr' => ?_⟩
    have hnot := hdisjoint.2.2 r' hr' r List.mem_cons_self
    rw [Bool.not_eq_true', ← Bool.not_eq_true, OpcodeRow.fits_iff]
    exact fun hw' => hnot ⟨hw', hw⟩
  rw [decode, hfind, Option.map_some]

theorem decode_isSome_iff {w : Word} : (decode w).isSome ↔ ∃ r ∈ opcodeTable, w &&& r.mask = r.pattern := by
  simp [decode, List.find?_isSome, OpcodeRow.fits_iff]

theorem decode_eq_none_iff {w : Word} : decode w = none ↔ ∀ r ∈ opcodeTable, w &&& r.mask ≠ r.pattern := by
  rw [← Option.not_isSome_iff_eq_none, decode_isSome_iff]
  simp

/-- Settles O2: a word that fits a row is the row's pattern and the bits that the row leaves free, and the instruction
built from it is encoded as just that. -/
theorem decodedWordIsItsEncoding : Obligations.DecodedWordIsItsEncoding := by
  intro w i h
  obtain ⟨r, hr, hw, rfl⟩ := exists_row_of_decode h
  obtain ⟨hopcode, hmode⟩ := opcodeTable_keepsFreeBits hr w
  rw [encode, hopcode, hmode]
  exact (word_eq_pattern_or_free hw).symm

/-- Every instruction's word fits the instruction's row, which reads the instruction back. -/
theorem encode_fits_rowOf (i : Instr) : Laws.RowFits.Statement i := by
  cases i with
  | clip sym => exact Laws.RowFits.clip sym
  | wrap => exact Laws.RowFits.wrap
  | round dir clp => exact Laws.RowFits.round dir clp
  | uround dir clp => exact Laws.RowFits.uround dir clp
  | trunc sym => exact Laws.RowFits.trunc sym
  | requant dir rlsb cmsb => exact Laws.RowFits.requant dir rlsb cmsb
  | bfNew womit => exact Laws.RowFits.bfNew womit
  | bfGetbit => exact Laws.RowFits.bfGetbit
  | bfGet => exact Laws.RowFits.bfGet
  | bfSetbit => exact Laws.RowFits.bfSetbit
  | bfSet => exact Laws.RowFits.bfSet
  | bfRev => exact Laws.RowFits.bfRev
  | bfOnes => exact Laws.RowFits.bfOnes
  | bfZeros => exact Laws.RowFits.bfZeros
  | invtop => exact Laws.RowFits.invtop
  | svNew sw womit => exact Laws.RowFits.svNew sw womit
  | svGet sw => exact Laws.RowFits.svGet sw
  | svGetr sw => exact Laws.RowFits.svGetr sw
  | svSet sw => exact Laws.RowFits.svSet sw
  | svSetr sw => exact Laws.RowFits.svSetr sw
  | bfCat => exact Laws.RowFits.bfCat

@[simp] theorem decode_encode (i : Instr) : decode (encode i) = some i := by
  obtain ⟨r, hrow, hfits, hbuild⟩ := encode_fits_rowOf i
  rw [decode_of_row_fits (List.mem_of_getElem? hrow) (OpcodeRow.fits_iff.1 hfits), hbuild]

/-- Settles O1: the word fits the instruction's own row, so no other row decodes it. -/
theorem decodeReadsEncodedInstruction : Obligations.DecodeReadsEncodedInstruction := decode_encode

/-- Settles O3: decoding is a search for a row that fits, and the patterns of any two rows conflict. -/
theorem legalWordFitsExactlyOneRow : Obligations.LegalWordFitsExactlyOneRow :=
  fun w => ⟨decode_isSome_iff, opcodeTable_fits_one w⟩

/-- Settles O4, by running the decoder on each word. -/
theorem sampleWordsDecode : Obligations.SampleWordsDecode := by
  unfold Obligations.SampleWordsDecode
  decide

end Sys2Proof

namespace Sys2Proof.Machine

/-- Settles O5, value by value of the field. -/
theorem symbolWidthOfField : Obligations.SymbolWidthOfField := by
  unfold Obligations.SymbolWidthOfField
  decide

/-! ### The assembler forms and the pseudo-instructions (R43, R47, R48) -/

theorem assemble_cmd (dst : Option VarName) (f : Asm) : (assemble dst f).cmd = encode f.instr := rfl

/-- A form has an operand for each slot that its instruction reads. -/
theorem Asm.operands_length (f : Asm) :
    f.containers.length = (slotUse f.instr).conts ∧ f.integers.length = (slotUse f.instr).ints := by
  cases f <;> exact ⟨rfl, rfl⟩

/-- The directions that name a policy are those a `<dir>` suffix spells. -/
theorem namesPolicy_iff {d : Dir} : d.namesPolicy = true ↔ ∃ t, dirOf t = d := by
  constructor
  · cases d with
    | halfUp => exact fun _ => ⟨.halfUp, rfl⟩
    | halfAway => exact fun _ => ⟨.halfAway, rfl⟩
    | halfEven => exact fun _ => ⟨.halfEven, rfl⟩
    | unsupported => exact nofun
  · rintro ⟨t, rfl⟩
    cases t <;> rfl

/-- What a form spells names an operation: its direction, if it has one, is a policy. -/
theorem Asm.instr_namesOperation (f : Asm) : f.instr.namesOperation = true := by
  cases f with
  | round t _ _ => exact namesPolicy_iff.2 ⟨t, rfl⟩
  | roundClip t _ _ _ => exact namesPolicy_iff.2 ⟨t, rfl⟩
  | uround t _ _ => exact namesPolicy_iff.2 ⟨t, rfl⟩
  | uroundClip t _ _ _ => exact namesPolicy_iff.2 ⟨t, rfl⟩
  | requant t _ _ _ _ _ _ _ => exact namesPolicy_iff.2 ⟨t, rfl⟩
  | _ => rfl

/-- A form for each instruction that names an operation; its operands do not matter here. -/
theorem exists_form_of_namesOperation {i : Instr} (h : i.namesOperation = true) : ∃ f : Asm, f.instr = i := by
  have z : IntOperand := .lit 0
  cases i with
  | clip sym => exact ⟨.clip sym z z, rfl⟩
  | wrap => exact ⟨.wrap z z, rfl⟩
  | round dir clp =>
    obtain ⟨t, rfl⟩ := namesPolicy_iff.1 h
    cases clp with
    | false => exact ⟨.round t z z, rfl⟩
    | true => exact ⟨.roundClip t z z z, rfl⟩
  | uround dir clp =>
    obtain ⟨t, rfl⟩ := namesPolicy_iff.1 h
    cases clp with
    | false => exact ⟨.uround t z z, rfl⟩
    | true => exact ⟨.uroundClip t z z z, rfl⟩
  | trunc sym => exact ⟨.trunc sym z z, rfl⟩
  | requant dir rlsb cmsb =>
    obtain ⟨t, rfl⟩ := namesPolicy_iff.1 h
    exact ⟨.requant t rlsb cmsb z z z z z, rfl⟩
  | bfNew womit =>
    cases womit with
    | false => exact ⟨.bfNew z z, rfl⟩
    | true => exact ⟨.bfNewMin z, rfl⟩
  | bfGetbit => exact ⟨.bfGetbit 0 z, rfl⟩
  | bfGet => exact ⟨.bfGet 0 z z, rfl⟩
  | bfSetbit => exact ⟨.bfSetbit 0 z z, rfl⟩
  | bfSet => exact ⟨.bfSet 0 z z z, rfl⟩
  | bfRev => exact ⟨.bfRev 0, rfl⟩
  | bfOnes => exact ⟨.bfOnes 0, rfl⟩
  | bfZeros => exact ⟨.bfZeros 0, rfl⟩
  | invtop => exact ⟨.invtop z z, rfl⟩
  | svNew sw womit =>
    cases womit with
    | false => exact ⟨.svNew sw z z, rfl⟩
    | true => exact ⟨.svNewMin sw z, rfl⟩
  | svGet sw => exact ⟨.svGet sw 0 z, rfl⟩
  | svGetr sw => exact ⟨.svGetr sw 0 z z, rfl⟩
  | svSet sw => exact ⟨.svSet sw 0 z z, rfl⟩
  | svSetr sw => exact ⟨.svSetr sw 0 z z z, rfl⟩
  | bfCat => exact ⟨.bfCat 0 0, rfl⟩

/-- Settles O6: a form's word is the encoding of its instruction, so it decodes to that; the forms spell the
instructions that name an operation, by the two lemmas above. -/
theorem assemblerFormsSpellTheInstructions : Obligations.AssemblerFormsSpellTheInstructions := by
  refine ⟨fun dst f => ⟨?_, f.operands_length⟩, fun i => ⟨exists_form_of_namesOperation, ?_⟩⟩
  · rw [assemble_cmd, decode_encode]
  · rintro ⟨f, rfl⟩
    exact f.instr_namesOperation

/-- Settles O7: each clause is the expansion's own equation. -/
theorem pseudoInstructionExpansions : Obligations.PseudoInstructionExpansions :=
  ⟨fun _ _ => rfl, fun _ _ _ => rfl, fun _ _ _ => rfl, fun _ _ _ _ _ _ _ => rfl, fun _ _ _ => rfl,
    fun _ _ _ => ⟨rfl, rfl⟩, fun _ _ _ _ => ⟨rfl, rfl⟩, fun _ _ _ _ _ => ⟨rfl, rfl⟩⟩

/-! ### Answering the request in flight (R44, R45, R78) -/

theorem answerWord_of_decode {w : Word} {i : Instr} (h : decode w = some i) (s : State) :
    answerWord w s = thenReceive (exec i s) := by
  simp only [answerWord, h]

theorem answerWord_of_illegal {w : Word} (h : decode w = none) (s : State) :
    answerWord w s = .next (receive (s.deliver (.raise .illegalCommand))) := by
  simp only [answerWord, h]
  rfl

theorem writeBack_raise {e : Status} (h : e ≠ .ok) (dst : Option VarName) (vars : List (VarName × Payload)) :
    writeBack dst (.raise e) vars = vars := by
  rcases writeBack_cases dst (.raise e) vars with h' | ⟨x, p, -, hok, -, -⟩
  · exact h'
  · exact absurd hok h

/-- Settles O50: the word decodes to nothing, so IllegalCommand is delivered and received, and an error writes no
variable back. -/
theorem illegalWordIsAnsweredIllegalCommand : Obligations.IllegalWordIsAnsweredIllegalCommand := by
  intro s q hr hq hrows
  rw [step_of_inFlight hr hq, answerWord_of_illegal (decode_eq_none_iff.2 hrows), receive_deliver,
    writeBack_raise (by decide)]
  rfl

/-- With a request in flight no instruction faults. -/
theorem exec_ne_fault {s : State} {q : Request} (hq : s.inFlight = some q) (i : Instr) (f : Fault) :
    exec i s ≠ .fault f := by
  rw [exec_eq_answer]
  cases ho : operandsFit s.ports (slotUse i) q with
  | false => rw [answer_operandOutside hq ho]; exact nofun
  | true =>
    cases hp : payloadFits s.ports (ruleOf i q) with
    | false => rw [answer_payloadOutside hq ho hp]; exact nofun
    | true => rw [answer_fits hq ho hp]; exact nofun

/-- Settles O48: the step runs the instruction; what it answers is received, and a refusal stands. -/
theorem stepRunsTheDecodedInstruction : Obligations.StepRunsTheDecodedInstruction := by
  intro s q i hr hq hi
  have hstep : step s = thenReceive (exec i s) := by rw [step_of_inFlight hr hq, answerWord_of_decode hi]
  refine ⟨fun r hanswers => ?_, fun x hrefused => ?_, exec_ne_fault hq i⟩
  · have hexec : exec i s = .next (s.deliver r) := hanswers
    rw [hstep, hexec, thenReceive, receive_deliver]
  · rw [hstep, hrefused, thenReceive]

/-! ### Issuing a line's request (R47, R49) -/

/-- A line is read when its container operands and its integer operands are, each to its slot. -/
theorem readLine_ok_iff_slots {vars : List (VarName × Payload)} {l : Line} {q : Request} :
    readLine vars l = .ok q ↔ q.cmd = l.cmd ∧
      (∀ o c, (o, c) ∈ [(l.ca, q.ca), (l.cb, q.cb)] → readCont vars o = .ok c) ∧
      (∀ o v, (o, v) ∈ [(l.a, q.a), (l.b, q.b), (l.c, q.c), (l.d, q.d), (l.e, q.e)] → readInt vars o = .ok v) := by
  rw [readLine_ok]
  simp only [List.mem_cons, List.not_mem_nil, or_false, Prod.mk.injEq, or_imp, forall_and, and_imp,
    forall_eq_apply_imp_iff, forall_eq, and_assoc]

section issuing

variable {s : State} {l : Line} (hr : s.resetAsserted = false) (hq : s.inFlight = none)
  (hl : s.program[s.pos]? = some l) (hshared : s.shared = [])

include hr hq hl hshared

theorem step_of_line_read {q : Request} (h : readLine s.vars l = .ok q) :
    step s = .next { s with inFlight := some q } := by
  rw [step_of_line hr hq hl, issue_of_nothing_shared l hshared, h]

theorem step_of_line_fault {f : Fault} (h : readLine s.vars l = .error f) : step s = .fault f := by
  rw [step_of_line hr hq hl, issue_of_nothing_shared l hshared, h]

/-- The step issues the request that the line reads, and no other. -/
theorem step_issues_iff (q : Request) :
    step s = .next { s with inFlight := some q } ↔ readLine s.vars l = .ok q := by
  refine ⟨fun h => ?_, step_of_line_read hr hq hl hshared⟩
  cases hread : readLine s.vars l with
  | ok q' =>
    rw [step_of_line_read hr hq hl hshared hread] at h
    have hq' : some q' = some q := congrArg State.inFlight (Host.Outcome.next.inj h)
    rw [Option.some.inj hq']
  | error f =>
    rw [step_of_line_fault hr hq hl hshared hread] at h
    exact nomatch h

end issuing

/-- Settles O51: the step issues what `readLine` reads, operand by operand; where it reads nothing, the step faults for
the variable that reading stopped at. -/
theorem lineIssuesItsRequestOrFaults : Obligations.LineIssuesItsRequestOrFaults := by
  intro s l hr hq hl hshared
  constructor
  · intro q
    rw [step_issues_iff hr hq hl hshared, readLine_ok_iff_slots]
    simp only [readCont_ok, readInt_ok]
  · intro hnone
    cases hread : readLine s.vars l with
    | ok q => exact absurd (step_of_line_read hr hq hl hshared hread) (hnone q)
    | error f =>
      rw [step_of_line_fault hr hq hl hshared hread]
      obtain ⟨x, rfl | rfl⟩ := readLine_error hread
      · exact ⟨x, .inl rfl⟩
      · exact ⟨x, .inr rfl⟩

end Sys2Proof.Machine
end

/-! ## The clipper and wrapper (40_clipper.md): the values of `clip` and `wrap`, and their answers -/

section
namespace Sys2Proof.Machine

/-! ### The value of `clip` (R50) -/

theorem clipValue_of_width_le_zero {w : Int} (h : w ≤ 0) (sym : Bool) (v : Int) : clipValue sym v w = 0 := if_pos h

/-- 0 lies in the range of every width, also in the symmetric range of width 1, which is 0 alone. -/
theorem clip_low_nonpos {sym : Bool} {low : Int} {n : Nat} (hlow : low = if sym then -2 ^ n + 1 else -2 ^ n) :
    low ≤ 0 := by
  have := two_pow_pos n
  cases sym with
  | false => rw [hlow, if_neg nofun]; omega
  | true => rw [hlow, if_pos rfl]; omega

section clip_value
variable {sym : Bool} {v w low : Int} {n : Nat}
  (hw : w = n + 1) (hlow : low = if sym then -2 ^ n + 1 else -2 ^ n)

include hw hlow

theorem clipValue_eq_ite :
    clipValue sym v w = if v > 2 ^ n - 1 then 2 ^ n - 1 else if v < low then low else v := by
  rw [clipValue, if_neg (by omega), show (w - 1).toNat = n by omega, pow2_eq, hlow]

theorem clipValue_of_above (h : v > 2 ^ n - 1) : clipValue sym v w = 2 ^ n - 1 := by
  rw [clipValue_eq_ite hw hlow, if_pos h]

theorem clipValue_of_inRange (h : low ≤ v) (h' : v ≤ 2 ^ n - 1) : clipValue sym v w = v := by
  rw [clipValue_eq_ite hw hlow, if_neg (not_lt.2 h'), if_neg (not_lt.2 h)]

theorem clipValue_of_below (h : v < low) : clipValue sym v w = low := by
  have hlow0 := clip_low_nonpos hlow
  have := two_pow_pos n
  rw [clipValue_eq_ite hw hlow, if_neg (by omega), if_pos h]

end clip_value

/-- A port that carries a value carries the value clipped: the bound it is clipped to lies between 0 and it. -/
theorem intFits_clipValue {p : Config.Ports} {v : Int} (h : intFits p v = true) (sym : Bool) (w : Int) :
    intFits p (clipValue sym v w) = true := by
  rcases le_or_gt w 0 with hw | hw
  · rw [clipValue_of_width_le_zero hw]
    exact intFits_zero h
  · obtain ⟨n, hn⟩ : ∃ n : Nat, w = n + 1 := ⟨(w - 1).toNat, by omega⟩
    obtain ⟨low, hlow⟩ : ∃ low : Int, low = if sym then -2 ^ n + 1 else -2 ^ n := ⟨_, rfl⟩
    have := two_pow_pos n
    rcases lt_or_ge (2 ^ n - 1) v with habove | hhigh
    · rw [clipValue_of_above hn hlow habove]
      exact intFits_between (intFits_zero h) h (by omega) (by omega)
    rcases lt_or_ge v low with hbelow | hinside
    · rw [clipValue_of_below hn hlow hbelow]
      exact intFits_between h (intFits_zero h) (by omega) (clip_low_nonpos hlow)
    · rwa [clipValue_of_inRange hn hlow hinside hhigh]

/-! ### The value of `wrap` (R51) -/

theorem wrapValue_of_width_le_zero {w : Int} (h : w ≤ 0) (v : Int) : wrapValue v w = 0 := if_pos h

section wrap_value
variable {v w : Int} {n : Nat} (hw : w = n + 1)

include hw

theorem wrapValue_eq_ite :
    wrapValue v w = if 2 ^ n ≤ v % 2 ^ (n + 1) then v % 2 ^ (n + 1) - 2 ^ (n + 1) else v % 2 ^ (n + 1) := by
  rw [wrapValue, if_neg (by omega), show w.toNat = n + 1 by omega, pow2_eq, sext, pow2_eq, pow2_eq,
    Nat.add_sub_cancel]

/-- Two congruent values of the range are equal, so the range and the congruence single the result out. -/
theorem wrapValue_eq_iff {u : Int} :
    wrapValue v w = u ↔ -2 ^ n ≤ u ∧ u < 2 ^ n ∧ (2 : Int) ^ (n + 1) ∣ v - u := by
  obtain ⟨hlo, hhi, hdvd⟩ := wrapValue_spec (v := v) hw
  constructor
  · rintro rfl
    exact ⟨hlo, hhi, hdvd⟩
  · rintro ⟨hlo', hhi', hdvd'⟩
    have hcongr := dvd_sub hdvd' hdvd
    rw [sub_sub_sub_cancel_left] at hcongr
    exact eq_of_congruent hlo hhi hlo' hhi' hcongr

end wrap_value

/-! ### Answers -/

section clipper_answers
variable {s : State} {q : Request} (hq : s.inFlight = some q) (ha : intFits s.ports q.a) (hb : intFits s.ports q.b)

include hq ha hb

/-- `clip` is never refused for its result, so it always answers the clipped value. -/
theorem answers_clip {sym : Bool} {v : Int} (h : clipValue sym q.a q.b = v) : Answers (.clip sym) s (.ret (.int v)) := by
  subst h
  exact answers_of_rule hq (operandsFit_ab ha hb) (intFits_clipValue ha sym q.b) rfl

/-- `wrap` is never refused for its result, so it always answers the wrapped value. -/
theorem answers_wrap {v : Int} (h : wrapValue q.a q.b = v) : Answers .wrap s (.ret (.int v)) := by
  subst h
  exact answers_of_rule hq (operandsFit_ab ha hb) (intFits_wrapValue ha) rfl

theorem answers_wrap_iff {v : Int} : Answers .wrap s (.ret (.int v)) ↔ wrapValue q.a q.b = v := by
  refine ⟨fun h => ?_, answers_wrap hq ha hb⟩
  have hsame := answers_unique (answers_wrap hq ha hb rfl) h
  simpa [Response.ret] using hsame

end clipper_answers

/-- Settles O8: the instruction answers the clipped value, which each clause of R50 names in turn. -/
theorem clipSaturatesToTheWidth : Obligations.ClipSaturatesToTheWidth := by
  intro s q sym hq ha hb
  refine ⟨fun hw => ?_, fun n hw low hlow => ⟨fun habove => ?_, fun hbelow => ?_, fun hlo hhi => ?_⟩⟩
  · exact answers_clip hq ha hb (clipValue_of_width_le_zero hw sym q.a)
  · exact answers_clip hq ha hb (clipValue_of_above hw hlow habove)
  · exact answers_clip hq ha hb (clipValue_of_below hw hlow hbelow)
  · exact answers_clip hq ha hb (clipValue_of_inRange hw hlow hlo hhi)

/-- Settles O9: the instruction answers the wrapped value, which is the remainder, less `2^w` from `2^(w-1)` on. -/
theorem wrapReducesToTheWidth : Obligations.WrapReducesToTheWidth := by
  intro s q hq ha hb
  refine ⟨fun hw => ?_, fun n hw => ⟨fun hlow => ?_, fun hhigh => ?_⟩⟩
  · exact answers_wrap hq ha hb (wrapValue_of_width_le_zero hw q.a)
  · exact answers_wrap hq ha hb (by rw [wrapValue_eq_ite hw, if_neg (not_le.2 hlow)])
  · exact answers_wrap hq ha hb (by rw [wrapValue_eq_ite hw, if_pos hhigh])

/-- Settles O10: `wrap` answers the wrapped value only, and that is the one value of the range congruent to `a`. -/
theorem wrapResultIsTheOneInRange : Obligations.WrapResultIsTheOneInRange := by
  intro s q n v hq ha hb hw
  rw [answers_wrap_iff hq ha hb, wrapValue_eq_iff hw]

/-- Settles O11: the laws of `clip` are O8's clauses with `low` written out; below `-2^(w-1)` a value is below both. -/
theorem clipAndWrapLaws : Obligations.ClipAndWrapLaws := by
  intro s q n hq ha hb hw
  have hclip (sym : Bool) := (clipSaturatesToTheWidth s q sym hq ha hb).2 n hw _ rfl
  obtain ⟨-, below, inside⟩ := hclip false
  obtain ⟨-, below_sym, -⟩ := hclip true
  refine ⟨fun hlo hhi => ⟨?_, inside hlo hhi⟩, fun habove sym => (hclip sym).1 habove, fun hbelow => ⟨below hbelow, ?_⟩⟩
  · exact answers_wrap hq ha hb (wrapValue_of_inRange hw hlo (Int.lt_of_le_sub_one hhi))
  · exact below_sym (hbelow.trans (Int.lt_succ _))

end Sys2Proof.Machine
end

/-! ## The rounder (41_rounder.md): the values of `round` and `uround`, and their answers -/

section
namespace Sys2Proof.Machine

/-! ### The policies (R53) -/

/-- A direction's policy gives the value that the clauses of R53 name for that direction. -/
theorem rnd_eq_of_policy {dir : Dir} {d : TieBreak} (hd : policy dir = some d) {a up v : Int} {n : Nat}
    (hup : up = (a + 2 ^ n) / 2 ^ (n + 1)) (h_up : dir = .halfUp → v = up)
    (h_away : dir = .halfAway → v = if 0 ≤ a then up else (a + 2 ^ n - 1) / 2 ^ (n + 1))
    (h_even : dir = .halfEven → v = if a % 2 ^ (n + 1) = 2 ^ n ∧ up % 2 = 1 then up - 1 else up) :
    rnd a (n + 1) d = v := by
  obtain ⟨e_up, e_away, e_even⟩ := rnd_eq a n
  subst hup
  cases dir with
  | halfUp => cases hd; rw [e_up, h_up rfl]
  | halfAway => cases hd; rw [e_away, h_away rfl]
  | halfEven => cases hd; rw [e_even, h_even rfl]
  | unsupported => cases hd

/-- On non-negative values `HALF_AWAY` is `HALF_UP`. -/
theorem rnd_halfAway_of_nonneg {v : Int} (h : 0 ≤ v) (r : Nat) : rnd v r .halfAway = rnd v r .halfUp := if_pos h

section tie
variable {a k : Int} {n : Nat} (hk : a = 2 ^ (n + 1) * k + 2 ^ n)

include hk

theorem tie_up : (a + 2 ^ n) / 2 ^ (n + 1) = k + 1 := by
  have hcut : a + 2 ^ n = 2 ^ (n + 1) * (k + 1) := by rw [hk]; ring
  rw [hcut, Int.mul_ediv_cancel_left _ (two_pow_pos _).ne']

theorem tie_down : (a + 2 ^ n - 1) / 2 ^ (n + 1) = k := by
  have hp := two_pow_pos (n + 1)
  have hcut : a + 2 ^ n - 1 = 2 ^ (n + 1) * k + (2 ^ (n + 1) - 1) := by rw [hk]; ring
  rw [hcut, Int.mul_add_ediv_left _ _ hp.ne', Int.ediv_eq_zero_of_lt (by omega) (by omega), add_zero]

theorem tie_remainder : a % 2 ^ (n + 1) = 2 ^ n := by
  have hp := two_pow_pos n
  have hs := two_pow_succ n
  rw [hk, Int.mul_add_emod_self_left, Int.emod_eq_of_lt hp.le (by omega)]

/-- The half point between `k` and `k + 1` has the sign of `k`. -/
theorem tie_nonneg_iff : 0 ≤ a ↔ 0 ≤ k := by
  have hp := two_pow_pos n
  have ha : a = 2 ^ n * (2 * k + 1) := by rw [hk]; ring
  rw [ha, mul_nonneg_iff_of_pos_left hp]
  omega

/-- At a tie `HALF_UP` goes up, `HALF_AWAY` by the sign, `HALF_EVEN` to the even neighbour. -/
theorem rnd_tie : rnd a (n + 1) .halfUp = k + 1 ∧ rnd a (n + 1) .halfAway = (if 0 ≤ k then k + 1 else k) ∧
    rnd a (n + 1) .halfEven = if k % 2 = 0 then k else k + 1 := by
  obtain ⟨e_up, e_away, e_even⟩ := rnd_eq a n
  rw [e_up, e_away, e_even, tie_up hk, tie_down hk]
  simp only [tie_nonneg_iff hk, tie_remainder hk, true_and, add_sub_cancel_right]
  have hodd : (k + 1) % 2 = 1 ↔ k % 2 = 0 := by omega
  simp only [hodd]

end tie

/-! ### The values of `round` and `uround` (R54, R55) -/

section round_value
variable {d : TieBreak} {clp : Bool} {v r ow : Int}

theorem roundValue_of_count_le_zero (h : r ≤ 0) : roundValue d clp v r ow = v := if_pos h

/-- The clamp applies when it is asked for and the output width is at least 1 (R54). -/
theorem clamp_cases (clp : Bool) (ow : Int) : (clp = false ∨ ow ≤ 0) ∨ clp = true ∧ 1 ≤ ow := by
  cases clp with
  | false => exact .inl (.inl rfl)
  | true => exact (le_or_gt ow 0).imp .inr fun how => ⟨rfl, how⟩

theorem not_clamped (h : clp = false ∨ ow ≤ 0) : ¬ (clp = true ∧ ow ≥ 1) := by
  rintro ⟨rfl, how⟩
  exact absurd (h.resolve_left nofun) (not_le.2 how)

theorem roundValue_unclamped {n : Nat} (hr : r = n + 1) (h : clp = false ∨ ow ≤ 0) :
    roundValue d clp v r ow = rnd v (n + 1) d := by
  rw [roundValue, if_neg (by omega), if_neg (not_clamped h), show r.toNat = n + 1 by omega]

/-- The clamp takes the lesser of the unclamped value, whose output width does not matter, and the maximum. -/
theorem roundValue_clamped (hr : 1 ≤ r) (h : 1 ≤ ow) :
    roundValue d true v r ow = min (roundValue d false v r 0) (2 ^ (ow - 1).toNat - 1) := by
  obtain ⟨n, hn⟩ : ∃ n : Nat, r = n + 1 := ⟨(r - 1).toNat, by omega⟩
  rw [roundValue_unclamped hn (.inl rfl), roundValue, if_neg (by omega), if_pos ⟨rfl, h⟩,
    show r.toNat = n + 1 by omega, pow2_eq]

/-- A port that carries a value carries the value rounded and clamped: both go towards 0. -/
theorem intFits_roundValue {p : Config.Ports} (hv : intFits p v = true) (d : TieBreak) (clp : Bool) (r ow : Int) :
    intFits p (roundValue d clp v r ow) = true := by
  rcases le_or_gt r 0 with hr | hr
  · rwa [roundValue_of_count_le_zero hr]
  obtain ⟨n, hn⟩ : ∃ n : Nat, r = n + 1 := ⟨(r - 1).toNat, by omega⟩
  rcases clamp_cases clp ow with h | ⟨rfl, how⟩
  · rw [roundValue_unclamped hn h]
    exact intFits_rnd hv n d
  · have := two_pow_pos (ow - 1).toNat
    rw [roundValue_clamped hr how, roundValue_unclamped hn (.inl rfl)]
    exact intFits_min (intFits_rnd hv n d) (by omega)

theorem uroundValue_of_count_le_zero (h : r ≤ 0) : uroundValue d clp v r ow = v := if_pos h

/-- Without a clamp `uround` is `round`. -/
theorem uroundValue_unclamped (h : clp = false ∨ ow ≤ 0) : uroundValue d clp v r ow = roundValue d false v r 0 := by
  rw [uroundValue, roundValue, if_neg (not_clamped h), if_neg (not_clamped (.inl rfl))]

/-- The implicit sign bit of R55: a clamped `uround` is a `round` clamped at one bit more. -/
theorem uroundValue_clamped (h : 1 ≤ ow) : uroundValue d true v r ow = roundValue d true v r (ow + 1) := by
  have hu : true = true ∧ ow ≥ 1 := ⟨rfl, h⟩
  have hr : true = true ∧ ow + 1 ≥ 1 := ⟨rfl, by omega⟩
  rw [uroundValue, roundValue, if_pos hu, if_pos hr, add_sub_cancel_right]

theorem intFits_uroundValue {p : Config.Ports} (hv : intFits p v = true) (d : TieBreak) (clp : Bool) (r ow : Int) :
    intFits p (uroundValue d clp v r ow) = true := by
  rcases clamp_cases clp ow with h | ⟨rfl, how⟩
  · rw [uroundValue_unclamped h]
    exact intFits_roundValue hv d false r 0
  · rw [uroundValue_clamped how]
    exact intFits_roundValue hv d true r (ow + 1)

theorem uroundValue_halfUp_eq_halfAway (h : 0 ≤ v) (clp : Bool) (r ow : Int) :
    uroundValue .halfUp clp v r ow = uroundValue .halfAway clp v r ow := by
  simp only [uroundValue, rnd_halfAway_of_nonneg h]

end round_value

/-! ### Answers -/

theorem roundRule_of_policy {dir : Dir} {d : TieBreak} (hd : policy dir = some d) (clp : Bool) (q : Request) :
    roundRule dir clp q = .ret (.int (roundValue d clp q.a q.b q.c)) := by
  simp only [roundRule, hd]

theorem uroundRule_of_policy_neg {dir : Dir} {d : TieBreak} (hd : policy dir = some d) (clp : Bool) {q : Request}
    (h : q.a < 0) : uroundRule dir clp q = .raise .domainError := by
  simp only [uroundRule, hd, if_pos h]

theorem uroundRule_of_policy_nonneg {dir : Dir} {d : TieBreak} (hd : policy dir = some d) (clp : Bool) {q : Request}
    (h : 0 ≤ q.a) : uroundRule dir clp q = .ret (.int (uroundValue d clp q.a q.b q.c)) := by
  simp only [uroundRule, hd, if_neg (not_lt.2 h)]

/-- An answer depends on the rule's response to the request in flight only. -/
theorem answer_congr {u : SlotUse} {rule rule' : Request → Response} {s : State} {q : Request}
    (hq : s.inFlight = some q) (h : rule q = rule' q) : answer u rule s = answer u rule' s := by
  simp only [answer, hq, h]

section rounder_answers
variable {s : State} {q : Request} {dir : Dir} {clp : Bool} (hq : s.inFlight = some q)
  (ha : intFits s.ports q.a) (hb : intFits s.ports q.b) (hc : clp → intFits s.ports q.c)

include hq ha hb hc

theorem answers_round_of_rule {r : Response} (hp : payloadFits s.ports r = true) (h : roundRule dir clp q = r) :
    Answers (.round dir clp) s r :=
  answers_of_rule hq (operandsFit_clamped ha hb hc) hp h

theorem answers_uround_of_rule {r : Response} (hp : payloadFits s.ports r = true) (h : uroundRule dir clp q = r) :
    Answers (.uround dir clp) s r :=
  answers_of_rule hq (operandsFit_clamped ha hb hc) hp h

/-- `round` is never refused for its result, so it always answers the rounded value. -/
theorem answers_round {d : TieBreak} (hd : policy dir = some d) {v : Int} (h : roundValue d clp q.a q.b q.c = v) :
    Answers (.round dir clp) s (.ret (.int v)) := by
  subst h
  exact answers_round_of_rule hq ha hb hc (intFits_roundValue ha d clp q.b q.c) (roundRule_of_policy hd clp q)

/-- `uround` of a non-negative value is never refused for its result either. -/
theorem answers_uround {d : TieBreak} (hd : policy dir = some d) (h0 : 0 ≤ q.a) {v : Int}
    (h : uroundValue d clp q.a q.b q.c = v) : Answers (.uround dir clp) s (.ret (.int v)) := by
  subst h
  exact answers_uround_of_rule hq ha hb hc (intFits_uroundValue ha d clp q.b q.c)
    (uroundRule_of_policy_nonneg hd clp h0)

end rounder_answers

/-- Settles O12: `round` answers its value; `v` is what the direction's policy gives, and the clamp is the value's. -/
theorem roundFollowsItsPolicy : Obligations.RoundFollowsItsPolicy := by
  intro s q dir clp hq ha hb hc
  refine ⟨?_, fun hdir hr => ?_, fun n up v hdir hr hup h_up h_away h_even => ?_⟩
  · rintro rfl
    exact answers_round_of_rule hq ha hb hc rfl rfl
  · obtain ⟨d, hd⟩ := policy_of_named hdir
    exact answers_round hq ha hb hc hd (roundValue_of_count_le_zero hr)
  · obtain ⟨d, hd⟩ := policy_of_named hdir
    obtain rfl := rnd_eq_of_policy hd hup h_up h_away h_even
    refine ⟨fun hclp => ?_, fun _ how => ?_, ?_⟩
    · exact answers_round hq ha hb hc hd (roundValue_unclamped hr (.inl hclp))
    · exact answers_round hq ha hb hc hd (roundValue_unclamped hr (.inr how))
    · rintro rfl how
      refine answers_round hq ha hb hc hd ?_
      rw [roundValue_clamped (by omega) how, roundValue_unclamped hr (.inl rfl)]

/-- Settles O13: the value is `rnd_near` to `a`, and `rnd_tie` says which neighbour it is at a half point. -/
theorem roundGivesTheNearestInteger : Obligations.RoundGivesTheNearestInteger := by
  intro s q dir n hq ha hb hdir hr
  obtain ⟨d, hd⟩ := policy_of_named hdir
  refine ⟨rnd q.a (n + 1) d, answers_round (clp := false) hq ha hb nofun hd (roundValue_unclamped hr (.inl rfl)),
    rnd_near q.a n d, fun k hk => ?_⟩
  obtain ⟨t_up, t_away, t_even⟩ := rnd_tie hk
  refine ⟨?_, ?_, ?_⟩
  · rintro rfl; cases hd; exact t_up
  · rintro rfl; cases hd; exact t_away
  · rintro rfl; cases hd; exact t_even

/-- Settles O14: of a non-negative value `uround` gives the value of `round`, the clamp at one bit more; and the two
policies that differ only below 0 have the same rule there. -/
theorem uroundIsRoundOfNonNegativeValues : Obligations.UroundIsRoundOfNonNegativeValues := by
  intro s q dir clp hq ha hb hc
  refine ⟨?_, fun hdir hneg => ?_, fun hdir h0 hr => ?_, fun hdir h0 hr => ?_, fun h0 => ?_⟩
  · rintro rfl
    exact answers_uround_of_rule hq ha hb hc rfl rfl
  · obtain ⟨d, hd⟩ := policy_of_named hdir
    exact answers_uround_of_rule hq ha hb hc rfl (uroundRule_of_policy_neg hd clp hneg)
  · obtain ⟨d, hd⟩ := policy_of_named hdir
    exact answers_uround hq ha hb hc hd h0 (uroundValue_of_count_le_zero hr)
  · obtain ⟨d, hd⟩ := policy_of_named hdir
    refine ⟨roundValue d false q.a q.b 0, answers_round (clp := false) hq ha hb nofun hd rfl, fun h => ?_, ?_⟩
    · exact answers_uround hq ha hb hc hd h0 (uroundValue_unclamped h)
    · rintro rfl how
      refine answers_uround hq ha hb hc hd h0 ?_
      rw [uroundValue_clamped how, roundValue_clamped hr (by omega), add_sub_cancel_right]
  · rw [exec_eq_answer, exec_eq_answer]
    refine answer_congr hq ?_
    calc uroundRule .halfUp clp q
      _ = .ret (.int (uroundValue .halfUp clp q.a q.b q.c)) := uroundRule_of_policy_nonneg rfl clp h0
      _ = .ret (.int (uroundValue .halfAway clp q.a q.b q.c)) := by rw [uroundValue_halfUp_eq_halfAway h0]
      _ = uroundRule .halfAway clp q := (uroundRule_of_policy_nonneg rfl clp h0).symm

end Sys2Proof.Machine
end

/-! ## The truncator (42_truncator.md): the value of `trunc`, and its answers -/

section
namespace Sys2Proof.Machine

/-- A port that carries a value carries its floor by a power of two: it lies between the value and 0. -/
theorem intFits_floor {p : Config.Ports} {v : Int} (h : intFits p v = true) (n : Nat) :
    intFits p (v / 2 ^ n) = true := by
  have hp := two_pow_pos n
  rcases le_or_gt 0 v with hv | hv
  · exact intFits_between (intFits_zero h) h (Int.ediv_nonneg hv hp.le) (Int.ediv_le_self _ hv)
  · have hle : v ≤ v / 2 ^ n := (Int.le_ediv_iff_mul_le hp).2 (mul_le_of_one_le_right hv.le hp)
    exact intFits_between h (intFits_zero h) hle (Int.ediv_neg_of_neg_of_pos hv hp).le

/-! ### The value of `trunc` (R56) -/

section trunc_value
variable {sym : Bool} {v r : Int}

theorem truncValue_of_count_le_zero (h : r ≤ 0) : truncValue sym v r = v := if_pos h

/-- The sign matters in symmetric mode only. -/
theorem trunc_cases (sym : Bool) (v : Int) : (sym = false ∨ 0 ≤ v) ∨ sym = true ∧ v < 0 := by
  cases sym with
  | false => exact .inl (.inl rfl)
  | true => exact (le_or_gt 0 v).imp .inr fun hv => ⟨rfl, hv⟩

theorem truncValue_floor (hr : 1 ≤ r) (h : sym = false ∨ 0 ≤ v) : truncValue sym v r = v / 2 ^ r.toNat := by
  have hmode : ¬ (sym = true ∧ v < 0) := by
    rintro ⟨rfl, hv⟩
    exact absurd (h.resolve_left nofun) (not_le.2 hv)
  rw [truncValue, if_neg (by omega), if_neg hmode, shr_eq]

/-- Below 0 the symmetric mode is the shift of the magnitude with the sign restored. -/
theorem truncValue_sym_of_neg (hr : 1 ≤ r) (hv : v < 0) : truncValue true v r = -((-v) / 2 ^ r.toNat) := by
  rw [truncValue, if_neg (by omega), if_pos ⟨rfl, hv⟩, shr_eq]

/-- A port that carries a value carries the value truncated. The magnitude itself may be outside the port, so the bound
is on the signed result: it lies between the value and 0. -/
theorem intFits_truncValue {p : Config.Ports} (h : intFits p v = true) (sym : Bool) (r : Int) :
    intFits p (truncValue sym v r) = true := by
  rcases le_or_gt r 0 with hr | hr
  · rwa [truncValue_of_count_le_zero hr]
  rcases trunc_cases sym v with hmode | ⟨rfl, hv⟩
  · rw [truncValue_floor hr hmode]
    exact intFits_floor h r.toNat
  · have hnonneg : 0 ≤ (-v) / 2 ^ r.toNat := Int.ediv_nonneg (by omega) (two_pow_pos r.toNat).le
    have hle : (-v) / 2 ^ r.toNat ≤ -v := Int.ediv_le_self _ (by omega)
    rw [truncValue_sym_of_neg hr hv]
    exact intFits_between h (intFits_zero h) (by omega) (by omega)

end trunc_value

/-! ### Answers -/

/-- `trunc` is never refused for its result, so it always answers the truncated value. -/
theorem answers_trunc {s : State} {q : Request} {sym : Bool} (hq : s.inFlight = some q) (ha : intFits s.ports q.a)
    (hb : intFits s.ports q.b) {v : Int} (h : truncValue sym q.a q.b = v) :
    Answers (.trunc sym) s (.ret (.int v)) := by
  subst h
  exact answers_of_rule hq (operandsFit_ab ha hb) (intFits_truncValue ha sym q.b) rfl

/-- Settles O15: the instruction answers the truncated value, which each clause of R56 names in turn. -/
theorem truncShiftsOutTheLowBits : Obligations.TruncShiftsOutTheLowBits := by
  intro s q sym hq ha hb
  refine ⟨fun hr => ?_, fun hr hmode => ?_, fun hr hsym hneg => ?_⟩
  · exact answers_trunc hq ha hb (truncValue_of_count_le_zero hr)
  · exact answers_trunc hq ha hb (truncValue_floor hr hmode)
  · subst hsym
    exact answers_trunc hq ha hb (truncValue_sym_of_neg hr hneg)

end Sys2Proof.Machine
end

/-! ## The requantizer (43_requantizer.md): the value of `requant`, and its answers -/

section
namespace Sys2Proof.Machine

/-! ### The stages of the pipeline (R57) -/

/-- Stage (b): `lw` low bits removed, by the rounder or the truncator. -/
def removeLowBits (d : TieBreak) (rlsb : Bool) (v lw : Int) : Int :=
  if rlsb then roundValue d false v lw 0 else truncValue false v lw

/-- Stage (c): reduced to `ow` bits, by the clipper or the wrapper. -/
def reduceWidth (cmsb : Bool) (v ow : Int) : Int :=
  if cmsb then clipValue false v ow else wrapValue v ow

theorem requantValue_eq_chain (d : TieBreak) (rlsb cmsb : Bool) (v iw ow lw g : Int) :
    requantValue d rlsb cmsb v iw ow lw g =
      wrapValue (reduceWidth cmsb (removeLowBits d rlsb (wrapValue v iw) lw) ow * 2 ^ g.toNat) ow := by
  rw [← shl_eq]
  rfl

/-- Without a clamp the output width has no effect. -/
theorem roundValue_noClamp_width (d : TieBreak) (v r ow : Int) :
    roundValue d false v r ow = roundValue d false v r 0 := by
  rw [roundValue, roundValue, if_neg (not_clamped (.inl rfl)), if_neg (not_clamped (.inl rfl))]

theorem removeLowBits_of_count_le_zero {lw : Int} (h : lw ≤ 0) (d : TieBreak) (rlsb : Bool) (v : Int) :
    removeLowBits d rlsb v lw = v := by
  cases rlsb with
  | false => exact truncValue_of_count_le_zero h
  | true => exact roundValue_of_count_le_zero h

theorem wrapValue_wrapValue (v w : Int) : wrapValue (wrapValue v w) w = wrapValue v w := by
  rcases le_or_gt w 0 with hw | hw
  · rw [wrapValue_of_width_le_zero hw, wrapValue_of_width_le_zero hw]
  · obtain ⟨n, hn⟩ : ∃ n : Nat, w = n + 1 := ⟨(w - 1).toNat, by omega⟩
    obtain ⟨hlo, hhi, -⟩ := wrapValue_spec (v := v) hn
    exact wrapValue_of_inRange hn hlo hhi

/-- A wrapped value lies in the range that `clip` keeps. -/
theorem clipValue_wrapValue (v w : Int) : clipValue false (wrapValue v w) w = wrapValue v w := by
  rcases le_or_gt w 0 with hw | hw
  · rw [clipValue_of_width_le_zero hw, wrapValue_of_width_le_zero hw]
  · obtain ⟨n, hn⟩ : ∃ n : Nat, w = n + 1 := ⟨(w - 1).toNat, by omega⟩
    obtain ⟨hlo, hhi, -⟩ := wrapValue_spec (v := v) hn
    exact clipValue_of_inRange hn rfl hlo (Int.le_sub_one_of_lt hhi)

theorem reduceWidth_wrapValue (cmsb : Bool) (v w : Int) : reduceWidth cmsb (wrapValue v w) w = wrapValue v w := by
  cases cmsb with
  | false => exact wrapValue_wrapValue v w
  | true => exact clipValue_wrapValue v w

/-- With no low bits removed and no gain, the stages after the first keep a value wrapped to the same width. -/
theorem requantValue_same_width (d : TieBreak) (rlsb cmsb : Bool) (v w : Int) :
    requantValue d rlsb cmsb v w w 0 0 = wrapValue v w := by
  rw [requantValue_eq_chain, removeLowBits_of_count_le_zero le_rfl, reduceWidth_wrapValue, Int.toNat_zero, pow_zero,
    mul_one, wrapValue_wrapValue]

/-! ### Answers -/

section stage_answers
variable {s : State} {q : Request} (hq : s.inFlight = some q) (ha : intFits s.ports q.a) (hb : intFits s.ports q.b)

include hq ha hb

theorem answers_removeLowBits {dir : Dir} {d : TieBreak} (hd : policy dir = some d) (rlsb : Bool) :
    Answers (if rlsb then .round dir false else .trunc false) s (.ret (.int (removeLowBits d rlsb q.a q.b))) := by
  cases rlsb with
  | false => exact answers_trunc hq ha hb rfl
  | true => exact answers_round (clp := false) hq ha hb nofun hd (roundValue_noClamp_width d q.a q.b q.c)

theorem answers_reduceWidth (cmsb : Bool) :
    Answers (if cmsb then .clip false else .wrap) s (.ret (.int (reduceWidth cmsb q.a q.b))) := by
  cases cmsb with
  | false => exact answers_wrap hq ha hb rfl
  | true => exact answers_clip hq ha hb rfl

end stage_answers

theorem requantRule_of_policy_neg {dir : Dir} {d : TieBreak} (hd : policy dir = some d) (rlsb cmsb : Bool) {q : Request}
    (h : q.e < 0) : requantRule dir rlsb cmsb q = .raise .rangeError := by
  simp only [requantRule, hd, if_pos h]

theorem requantRule_of_policy_nonneg {dir : Dir} {d : TieBreak} (hd : policy dir = some d) (rlsb cmsb : Bool)
    {q : Request} (h : 0 ≤ q.e) :
    requantRule dir rlsb cmsb q = .ret (.int (requantValue d rlsb cmsb q.a q.b q.c q.d q.e)) := by
  simp only [requantRule, hd, if_neg (not_lt.2 h)]

section requant_answers
variable {s : State} {q : Request} {dir : Dir} {rlsb cmsb : Bool} (hq : s.inFlight = some q)
  (ho : operandsFit s.ports ⟨0, 5⟩ q = true)

include hq ho

theorem answers_requant_of_rule {r : Response} (hp : payloadFits s.ports r = true)
    (h : requantRule dir rlsb cmsb q = r) : Answers (.requant dir rlsb cmsb) s r :=
  answers_of_rule hq ho hp h

/-- Unlike the units it is made of, `requant` can be refused for its result, which the gain may enlarge. -/
theorem answers_requant {d : TieBreak} (hd : policy dir = some d) (he : 0 ≤ q.e) {v : Int}
    (hp : intFits s.ports v = true) (h : requantValue d rlsb cmsb q.a q.b q.c q.d q.e = v) :
    Answers (.requant dir rlsb cmsb) s (.ret (.int v)) := by
  subst h
  exact answers_requant_of_rule hq ho hp (requantRule_of_policy_nonneg hd rlsb cmsb he)

end requant_answers

/-- Settles O16: the errors are the rule's; otherwise each stage of `requantValue_eq_chain` is its unit's own answer,
and the reference ports carry every operand and result on the way. -/
theorem requantIsTheChainOfUnits : Obligations.RequantIsTheChainOfUnits := by
  intro s q dir rlsb cmsb sub hq ha hb hc hd he hsub
  obtain rfl := funext₂ hsub
  have ho := operandsFit_abcde ha hb hc hd he
  refine ⟨?_, fun hdir hneg => ?_, fun hdir h0 => ?_⟩
  · rintro rfl
    exact answers_requant_of_rule hq ho rfl rfl
  · obtain ⟨d, hpol⟩ := policy_of_named hdir
    exact answers_requant_of_rule hq ho rfl (requantRule_of_policy_neg hpol rlsb cmsb hneg)
  · obtain ⟨d, hpol⟩ := policy_of_named hdir
    refine ⟨_, _, _, _, answers_wrap rfl rfl rfl rfl, answers_removeLowBits rfl rfl rfl hpol rlsb,
      answers_reduceWidth rfl rfl rfl cmsb, answers_wrap rfl rfl rfl rfl, fun hv => ?_⟩
    exact answers_requant hq ho hpol h0 hv (requantValue_eq_chain d rlsb cmsb q.a q.b q.c q.d q.e)

/-- Settles O17: `wrap` answers the wrapped value, which is the value of `requant` here; in range that is `a` itself. -/
theorem requantToTheSameWidth : Obligations.RequantToTheSameWidth := by
  intro s q dir hq ha hb hc hd he h0 hdir
  obtain ⟨d, hpol⟩ := policy_of_named hdir
  have ho : operandsFit s.ports ⟨0, 5⟩ q = true :=
    operandsFit_abcde ha hb (hc ▸ hb) (hd.symm ▸ h0) (he.symm ▸ h0)
  have hvalue : requantValue d false true q.a q.b q.c q.d q.e = wrapValue q.a q.b := by
    rw [hc, hd, he, requantValue_same_width]
  have hsame : ∀ r, Answers .wrap s r → Answers (.requant dir false true) s r := by
    intro r hr
    obtain rfl := answers_unique (answers_wrap hq ha hb rfl) hr
    exact answers_requant hq ho hpol he.ge (intFits_wrapValue ha) hvalue
  exact ⟨hsame, fun n hn hlo hhi => hsame _ (answers_wrap hq ha hb (wrapValue_of_inRange hn hlo hhi))⟩

end Sys2Proof.Machine
end

/-! ## The bit-field slicer and setter (44_bitfield.md): the rules' cases, and the operations' answers -/

section
namespace Sys2Proof.Machine

/-! ### Delivered responses and the container check (R17, R58) -/

/-- The response that an instruction leaves at the port is the one it answers. -/
theorem answers_of_exec_next {i : Instr} {s t : State} {r : Response} (h : exec i s = .next t)
    (hr : t.response = some r) : Answers i s r ∧ t = s.deliver r := by
  obtain ⟨q, -, -, -, rfl⟩ := exec_next h
  obtain rfl := Option.some.inj hr
  exact ⟨h, rfl⟩

theorem ret_ne_raise_rangeError (p : Payload) : Response.ret p ≠ .raise .rangeError := by
  simp [Response.ret, Response.raise]

/-- A payload gets past the check only for a well-formed container. -/
theorem checked_eq_ret_iff {c : Container} {r : Response} {p : Payload} :
    checked c r = .ret p ↔ c.wf ∧ r = .ret p := by
  by_cases hwf : c.wf
  · rw [checked_wf hwf, and_iff_right hwf]
  · rw [checked_illFormed hwf]
    exact iff_of_false (ret_ne_raise_rangeError p).symm fun h => hwf h.1

/-- Every rule that reads `ca` begins with its check. -/
theorem ruleOf_of_ca_illFormed {i : Instr} {sw : SymWidth} {q : Request} (h : ¬ q.ca.wf)
    (hi : i ∈ [.bfGetbit, .bfGet, .bfSetbit, .bfSet, .bfRev, .bfOnes, .bfZeros, .svGet sw, .svGetr sw, .svSet sw,
      .svSetr sw, .bfCat]) : ruleOf i q = .raise .rangeError := by
  simp only [List.mem_cons, List.not_mem_nil, or_false] at hi
  rcases hi with rfl | rfl | rfl | rfl | rfl | rfl | rfl | rfl | rfl | rfl | rfl | rfl <;> exact checked_illFormed h _

/-- `bf.cat` checks `cb` after `ca`, with the same error. -/
theorem bfCatRule_of_cb_illFormed {q : Request} (h : ¬ q.cb.wf) : bfCatRule q = .raise .rangeError := by
  rw [bfCatRule, checked_illFormed h, checked, ite_self]

/-- Settles O18: the rules check `ca` first, `bf.cat` then `cb`, and an error fits every port. -/
theorem illFormedContainerIsRangeError : Obligations.IllFormedContainerIsRangeError := by
  intro s q sw i hq ho
  refine ⟨fun hi hca => ?_, ?_⟩
  · exact answers_of_rule hq ho rfl (ruleOf_of_ca_illFormed hca hi)
  · rintro rfl hcb
    exact answers_of_rule hq ho rfl (bfCatRule_of_cb_illFormed hcb)

/-! ### Constructing a container (R59) -/

theorem bfNewRule_of_neg {q : Request} (h : q.a < 0) (womit : Bool) : bfNewRule womit q = .raise .domainError :=
  if_pos h

/-- The least width of at least 1 that holds a value: an omitted width, where also 0 takes one bit. -/
theorem max_one_bitlen {v : Int} (h0 : 0 ≤ v) {k : Nat} (hk : 1 ≤ k) (hlt : v < 2 ^ k)
    (hleast : k = 1 ∨ 2 ^ (k - 1) ≤ v) : max 1 (bitlen v) = k := by
  have hle := (bitlen_le_iff h0 k).2 hlt
  rcases hleast with rfl | hge
  · exact max_eq_left hle
  · rw [(bitlen_eq_iff h0 hk).2 ⟨hlt, hge⟩, max_eq_right hk]

theorem bfNewRule_omitted {q : Request} (h0 : 0 ≤ q.a) {k : Nat} (hk : max 1 (bitlen q.a) = k) :
    bfNewRule true q = .ret (.cont ⟨q.a, k⟩) := by
  rw [bfNewRule, if_neg (not_lt.2 h0), if_pos rfl, ← hk, Nat.cast_max, Nat.cast_one]

/-- A positive width holds the values below its power of two. -/
theorem bitlen_le_width_iff {v w : Int} (h0 : 0 ≤ v) (hw : 1 ≤ w) : (bitlen v : Int) ≤ w ↔ v < 2 ^ w.toNat := by
  rw [← bitlen_le_iff h0]
  omega

theorem bfNewRule_tooNarrow {q : Request} (h0 : 0 ≤ q.a) (h : q.b ≤ 0 ∨ 2 ^ q.b.toNat ≤ q.a) :
    bfNewRule false q = .raise .rangeError := by
  rw [bfNewRule, if_neg (not_lt.2 h0), if_neg nofun]
  split
  · rfl
  · next hb =>
    have hfit := bitlen_le_width_iff h0 (Int.not_le.1 hb)
    rw [if_pos (not_le.1 (mt hfit.1 (not_lt.2 (h.resolve_left hb))))]

theorem bfNewRule_wideEnough {q : Request} (h0 : 0 ≤ q.a) (hb : 1 ≤ q.b) (h : q.a < 2 ^ q.b.toNat) :
    bfNewRule false q = .ret (.cont ⟨q.a, q.b⟩) := by
  have hfit := (bitlen_le_width_iff h0 hb).2 h
  rw [bfNewRule, if_neg (not_lt.2 h0), if_neg nofun, if_neg (by omega), if_neg (not_lt.2 hfit)]

/-- Settles O19: the clauses of R59 are the cases of the rule, the bit length standing for the powers of two. -/
theorem bfNewConstructsAContainer : Obligations.BfNewConstructsAContainer := by
  intro s q womit hq ha hb
  have ho : operandsFit s.ports (slotUse (.bfNew womit)) q = true := operandsFit_new ha hb
  refine ⟨fun hneg => ?_, ?_, ?_, ?_⟩
  · exact answers_of_rule hq ho rfl (bfNewRule_of_neg hneg womit)
  · rintro rfl h0 k hk hlt hleast hfits
    exact answers_of_rule hq ho hfits (bfNewRule_omitted h0 (max_one_bitlen h0 hk hlt hleast))
  · rintro rfl h0 hnarrow
    exact answers_of_rule hq ho rfl (bfNewRule_tooNarrow h0 hnarrow)
  · rintro rfl h0 hw hlt hfits
    exact answers_of_rule hq ho hfits (bfNewRule_wideEnough h0 hw hlt)

/-! ### The tests of an index and of a range (R60 to R63) -/

/-- The test of bit index `i` against the width, which `bf.getbit` and `bf.setbit` share (R60, R62). -/
def indexGuarded (i width : Int) (rest : Response) : Response :=
  if i < 0 ∨ i ≥ width then .raise .rangeError else rest

/-- The test of range `[h:l]` against the width, which `bf.get` and `bf.set` share (R61, R63). -/
def rangeGuarded (h l width : Int) (rest : Response) : Response :=
  if h < l then .raise .rangeError else if l < 0 ∨ h ≥ width then .raise .rangeError else rest

section guards
variable {i h l w : Int} {r : Response}

theorem indexGuarded_outside (hout : i < 0 ∨ w ≤ i) : indexGuarded i w r = .raise .rangeError := if_pos hout

theorem indexGuarded_inside (h0 : 0 ≤ i) (hi : i < w) : indexGuarded i w r = r := if_neg (by omega)

theorem rangeGuarded_outside (hout : h < l ∨ l < 0 ∨ w ≤ h) : rangeGuarded h l w r = .raise .rangeError := by
  unfold rangeGuarded
  split
  · rfl
  · next hordered => exact if_pos (hout.resolve_left hordered)

theorem rangeGuarded_inside (h0 : 0 ≤ l) (hl : l ≤ h) (hh : h < w) : rangeGuarded h l w r = r := by
  rw [rangeGuarded, if_neg (not_lt.2 hl), if_neg (by omega)]

/-- A payload gets past the test only for a range of the container. -/
theorem rangeGuarded_eq_ret {p : Payload} (hret : rangeGuarded h l w r = .ret p) :
    0 ≤ l ∧ l ≤ h ∧ h < w ∧ r = .ret p := by
  have hin : ¬ (h < l ∨ l < 0 ∨ w ≤ h) := fun hout =>
    ret_ne_raise_rangeError p (hret.symm.trans (rangeGuarded_outside hout))
  have h0 : 0 ≤ l := by omega
  have hl : l ≤ h := by omega
  have hh : h < w := by omega
  exact ⟨h0, hl, hh, (rangeGuarded_inside h0 hl hh).symm.trans hret⟩

end guards

theorem bfGetbitRule_eq (q : Request) : bfGetbitRule q =
    checked q.ca (indexGuarded q.a q.ca.width (.ret (.int (bit q.ca.data q.a.toNat)))) := rfl

theorem bfGetRule_eq (q : Request) : bfGetRule q =
    checked q.ca (rangeGuarded q.a q.b q.ca.width (.ret (.int (slice q.ca.data q.a.toNat q.b.toNat)))) := rfl

theorem bfSetRule_eq (q : Request) : bfSetRule q =
    checked q.ca (rangeGuarded q.a q.b q.ca.width (writeRange q.ca q.a.toNat q.b.toNat q.c)) := rfl

theorem bfSetbitRule_eq (q : Request) : bfSetbitRule q =
    checked q.ca (indexGuarded q.a q.ca.width
      (if q.b ≠ 0 ∧ q.b ≠ 1 then .raise .rangeError
      else .ret (.cont ⟨setbits q.ca.data q.a.toNat q.a.toNat q.b, q.ca.width⟩))) := rfl

/-! ### Reading bits (R60, R61) -/

/-- Settles O20: past the check and the test of the index the rule is the one bit. -/
theorem bfGetbitReadsOneBit : Obligations.BfGetbitReadsOneBit := by
  intro s q hq hca ha hwf
  have ho : operandsFit s.ports (slotUse .bfGetbit) q = true := operandsFit_cont_a hca ha
  have hrule := (bfGetbitRule_eq q).trans (checked_wf hwf _)
  refine ⟨fun hout => ?_, ?_⟩
  · exact answers_of_rule hq ho rfl (hrule.trans (indexGuarded_outside hout))
  · rintro h0 hi _ rfl hv
    refine answers_of_rule hq ho hv ((hrule.trans (indexGuarded_inside h0 hi)).trans ?_)
    rw [bit_eq]

/-- Of a range `[h:l]` of a container `bf.get` is the slice. -/
theorem bfGetRule_inside {q : Request} {c : Container} {h l v : Int} (hca : q.ca = c) (ha : q.a = h) (hb : q.b = l)
    (hwf : c.wf) (h0 : 0 ≤ l) (hl : l ≤ h) (hh : h < c.width) (hslice : slice c.data h.toNat l.toNat = v) :
    bfGetRule q = .ret (.int v) := by
  subst hca ha hb hslice
  rw [bfGetRule_eq, checked_wf hwf, rangeGuarded_inside h0 hl hh]

/-- Settles O21: the slice is the quotient by `2^l`, cut to the `h - l + 1` bits of the range. -/
theorem bfGetReadsARange : Obligations.BfGetReadsARange := by
  intro s q hq hca ha hb hwf
  have ho : operandsFit s.ports (slotUse .bfGet) q = true := operandsFit_cont_ab hca ha hb
  refine ⟨fun hout => ?_, ?_⟩
  · refine answers_of_rule hq ho rfl ?_
    exact (bfGetRule_eq q).trans ((checked_wf hwf _).trans (rangeGuarded_outside hout))
  · rintro h0 hl hh _ rfl hv
    refine answers_of_rule hq ho hv (bfGetRule_inside rfl rfl rfl hwf h0 hl hh ?_)
    rw [slice_eq, show q.a.toNat - q.b.toNat + 1 = (q.a - q.b + 1).toNat by omega]

/-! ### Writing bits (R62, R63) -/

theorem writeRange_outside {c : Container} {h l : Nat} {x : Int} (hx : x < -1 ∨ 2 ^ (h - l + 1) ≤ x) :
    writeRange c h l x = .raise .rangeError := by
  rw [writeRange, writtenValue_error hx]

theorem writeRange_fits {c : Container} {h l : Nat} {x : Int} (hx : 0 ≤ x) (hx' : x < 2 ^ (h - l + 1)) :
    writeRange c h l x = .ret (.cont ⟨setbits c.data h l x, c.width⟩) := by
  rw [writeRange, writtenValue_fits hx hx']

/-- An instruction whose rule comes to a range write that fits answers the written container: it is as wide as the one
read, so its port carries it. -/
theorem answers_writeRange {i : Instr} {s : State} {q : Request} {h l : Nat} {x : Int} (hq : s.inFlight = some q)
    (ho : operandsFit s.ports (slotUse i) q = true) (hca : contFits s.ports q.ca = true) (hwf : q.ca.wf) (hl : l ≤ h)
    (hh : (h : Int) < q.ca.width) (hx : -1 ≤ x) (hx' : x < 2 ^ (h - l + 1))
    (hrule : ruleOf i q = writeRange q.ca h l x) :
    ∃ d, Answers i s (.ret (.cont ⟨d, q.ca.width⟩)) ∧ Container.wf ⟨d, q.ca.width⟩ ∧
      ∀ j : Nat, d / 2 ^ j % 2 =
        if l ≤ j ∧ j ≤ h then (if x = -1 then 1 else x / 2 ^ (j - l) % 2) else q.ca.data / 2 ^ j % 2 := by
  obtain ⟨d, hd, hdwf, hbits⟩ := writeRange_spec hwf hl hh hx hx'
  exact ⟨d, answers_of_rule hq ho (contFits_of_width hca hdwf.1 hdwf.2.2) (hrule.trans hd), hdwf, hbits⟩

/-- A bit fits a range of one bit. -/
theorem bit_lt_two_pow {b : Int} (hb : b = 0 ∨ b = 1) (i : Nat) : b < 2 ^ (i - i + 1) := by
  rw [Nat.sub_self]
  omega

theorem bfSetbitRule_outside {q : Request} (hwf : q.ca.wf)
    (h : q.a < 0 ∨ q.ca.width ≤ q.a ∨ (q.b ≠ 0 ∧ q.b ≠ 1)) : bfSetbitRule q = .raise .rangeError := by
  rw [bfSetbitRule_eq, checked_wf hwf]
  rcases or_assoc.2 h with hindex | hbit
  · exact indexGuarded_outside hindex
  · rw [if_pos hbit, indexGuarded, ite_self]

/-- A bit write is the write of the range of that one bit. -/
theorem bfSetbitRule_writes {q : Request} (hwf : q.ca.wf) (h0 : 0 ≤ q.a) (hi : q.a < q.ca.width)
    (hb : q.b = 0 ∨ q.b = 1) : bfSetbitRule q = writeRange q.ca q.a.toNat q.a.toNat q.b := by
  rw [writeRange_fits (by omega) (bit_lt_two_pow hb _), bfSetbitRule_eq, checked_wf hwf, indexGuarded_inside h0 hi,
    if_neg (by omega)]

/-- Settles O22: the one bit of the range `[i:i]` is bit `i`, and it takes bit 0 of the value, which is the value. -/
theorem bfSetbitWritesOneBit : Obligations.BfSetbitWritesOneBit := by
  intro s q hq hca ha hb hwf
  have ho : operandsFit s.ports (slotUse .bfSetbit) q = true := operandsFit_cont_ab hca ha hb
  refine ⟨fun hout => answers_of_rule hq ho rfl (bfSetbitRule_outside hwf hout), fun h0 hi hbit => ?_⟩
  obtain ⟨d, hd, hdwf, hbits⟩ := answers_writeRange hq ho hca hwf (le_refl q.a.toNat) (by omega) (by omega)
    (bit_lt_two_pow hbit _) (bfSetbitRule_writes hwf h0 hi hbit)
  refine ⟨d, hd, hdwf, fun j => (hbits j).trans ?_⟩
  by_cases hj : (j : Int) = q.a
  · have hplace : j - q.a.toNat = 0 := by omega
    have hvalue : q.b % 2 = q.b := by omega
    rw [if_pos (by omega), if_neg (by omega), if_pos hj, hplace, pow_zero, Int.ediv_one, hvalue]
  · rw [if_neg (by omega), if_neg hj]

/-- Settles O23: past the check and the test of the range the rule is the range write. -/
theorem bfSetWritesARange : Obligations.BfSetWritesARange := by
  intro s q hq hca ha hb hc hwf
  have ho : operandsFit s.ports (slotUse .bfSet) q = true := operandsFit_cont_abc hca ha hb hc
  have hrule := (bfSetRule_eq q).trans (checked_wf hwf _)
  refine ⟨fun hout => answers_of_rule hq ho rfl (hrule.trans (rangeGuarded_outside hout)), ?_⟩
  intro h l hh hl hle hw
  have hwrite : bfSetRule q = writeRange q.ca h l q.c := by
    rw [hrule, rangeGuarded_inside (by omega) (by omega) (by omega), hh, hl, Int.toNat_natCast, Int.toNat_natCast]
  refine ⟨fun hx => ?_, fun hx hx' => ?_⟩
  · exact answers_of_rule hq ho rfl (hwrite.trans (writeRange_outside hx))
  · exact answers_writeRange hq ho hca hwf hle hw hx hx' hwrite

/-- A container that `bf.set` returns for a value other than the sentinel is `ca` with the value in a range of it. -/
theorem bfSetRule_eq_ret {q : Request} {c : Container} (hx : 0 ≤ q.c) (h : bfSetRule q = .ret (.cont c)) :
    0 ≤ q.b ∧ q.b ≤ q.a ∧ q.a < q.ca.width ∧ q.c < 2 ^ (q.a.toNat - q.b.toNat + 1) ∧
      c = ⟨setbits q.ca.data q.a.toNat q.b.toNat q.c, q.ca.width⟩ := by
  rw [bfSetRule_eq, checked_eq_ret_iff] at h
  obtain ⟨h0, hl, hh, hwrite⟩ := rangeGuarded_eq_ret h.2
  have hx' : q.c < 2 ^ (q.a.toNat - q.b.toNat + 1) :=
    not_le.1 fun hlarge => ret_ne_raise_rangeError _ (hwrite.symm.trans (writeRange_outside (.inr hlarge)))
  rw [writeRange_fits hx hx'] at hwrite
  refine ⟨h0, hl, hh, hx', ?_⟩
  simpa [Response.ret, eq_comm] using hwrite

/-- The slots of `bf.set` that fit are its container and its three integers. -/
theorem operandsFit_cont_abc_iff {p : Config.Ports} {q : Request} : operandsFit p ⟨1, 3⟩ q = true ↔
    contFits p q.ca = true ∧ intFits p q.a = true ∧ intFits p q.b = true ∧ intFits p q.c = true := by
  simp [operandsFit, Request.contsRead, Request.intsRead]

/-- Settles O24: the written container is `ca` with the value in the range, and its slice there is the value. -/
theorem bfGetReadsWhatBfSetWrote : Obligations.BfGetReadsWhatBfSetWrote := by
  rintro s t _ q c hq hx h hr rfl
  obtain ⟨hans, rfl⟩ := answers_of_exec_next h hr
  obtain ⟨ho, hc, hrule⟩ := (answers_inFlight_iff hq).1 hans
  obtain ⟨-, ha, hb, hxfits⟩ := operandsFit_cont_abc_iff.1 ho
  have hwithin := rule_within .bfSet q
  rw [← hrule] at hwithin
  have hcwf : c.wf := (hwithin.payload rfl).1
  obtain ⟨h0, hl, hh, hx', rfl⟩ := bfSetRule_eq_ret hx hrule.symm
  refine answers_of_rule (q := { q with ca := ⟨_, q.ca.width⟩ }) rfl (operandsFit_cont_ab hc ha hb) hxfits ?_
  exact bfGetRule_inside rfl rfl rfl hcwf h0 hl hh (slice_setbits hx hx')

/-! ### Reversing and listing bits (R64 to R66) -/

/-- Reversing twice restores each bit below the width, and at and above the width there is none. -/
theorem reversed_reversed {c : Container} (hwf : c.wf) : reversed ⟨reversed c, c.width⟩ = c.data := by
  obtain ⟨-, hd0, hdlt⟩ := hwf
  obtain ⟨-, -, hbits⟩ := reversed_spec c
  obtain ⟨hv0, hvlt, hbits'⟩ := reversed_spec ⟨reversed c, c.width⟩
  refine eq_of_bits hv0 hd0 fun j => ?_
  rcases lt_or_ge j c.width.toNat with hj | hj
  · rw [hbits' j hj, hbits (c.width.toNat - 1 - j) (by omega),
      show c.width.toNat - 1 - (c.width.toNat - 1 - j) = j by omega]
  · rw [bit_above hv0 hvlt hj, bit_above hd0 hdlt hj]

theorem operandsFit_cont_iff {p : Config.Ports} {q : Request} :
    operandsFit p ⟨1, 0⟩ q = true ↔ contFits p q.ca = true := by
  simp [operandsFit, Request.contsRead, Request.intsRead]

theorem answers_bfRev {s : State} {q : Request} {v : Int} (hq : s.inFlight = some q) (hca : contFits s.ports q.ca)
    (hwf : q.ca.wf) (hv : intFits s.ports v) (hrev : reversed q.ca = v) : Answers .bfRev s (.ret (.int v)) := by
  subst hrev
  exact answers_of_rule hq (operandsFit_cont hca) hv (checked_wf hwf _)

/-- Settles O25: the value is `reversed`, of which `reversed_spec` says the bounds and the bits. -/
theorem bfRevReversesTheBits : Obligations.BfRevReversesTheBits := by
  intro s q hq hca hwf
  obtain ⟨h0, hlt, hbits⟩ := reversed_spec q.ca
  exact ⟨reversed q.ca, h0, hlt, hbits, fun hv => answers_bfRev hq hca hwf hv rfl⟩

/-- Settles O26: the first answer is the reversed data, which fits the width, and reversing it restores the data. -/
theorem bfRevTwiceRestoresTheData : Obligations.BfRevTwiceRestoresTheData := by
  rintro s t _ q v hq h hr hdata rfl
  obtain ⟨hans, rfl⟩ := answers_of_exec_next h hr
  obtain ⟨ho, -, hrule⟩ := (answers_inFlight_iff hq).1 hans
  obtain ⟨hwf, hret⟩ := checked_eq_ret_iff.1 hrule.symm
  obtain rfl : reversed q.ca = v := by simpa [Response.ret] using hret
  obtain ⟨h0, hlt, -⟩ := reversed_spec q.ca
  have hfits := contFits_of_width (operandsFit_cont_iff.1 ho) hwf.1 hlt
  have hrev := reversed_reversed hwf
  exact answers_bfRev (q := { q with ca := ⟨_, q.ca.width⟩ }) rfl hfits ⟨hwf.1, h0, hlt⟩ hdata hrev

/-- Settles O27: the lists are `positions` of 1 and of 0, and a list fits every port. -/
theorem bfOnesAndZerosListPositions : Obligations.BfOnesAndZerosListPositions := by
  intro s q hq hca hwf
  have ho := operandsFit_cont hca
  exact ⟨positions q.ca 1, positions q.ca 0, answers_of_rule hq ho rfl (checked_wf hwf _),
    answers_of_rule hq ho rfl (checked_wf hwf _), positions_ascending q.ca 1, positions_ascending q.ca 0,
    mem_positions q.ca 1, mem_positions q.ca 0⟩

/-! ### Inverting the top bit (R67) -/

theorem invtopRule_of_width_le_zero {q : Request} (h : q.b ≤ 0) : invtopRule q = .raise .rangeError := if_pos h

theorem xorTop_succ (n : Nat) (u : Int) : xorTop (n + 1) u = if 2 ^ n ≤ u then u - 2 ^ n else u + 2 ^ n := by
  simp only [xorTop, pow2_eq, Nat.add_sub_cancel, ge_iff_le]

theorem invtopRule_of_width_succ {q : Request} {n : Nat} (h : q.b = n + 1) :
    invtopRule q = .ret (.int (xorTop (n + 1) (q.a % 2 ^ (n + 1)))) := by
  rw [invtopRule, if_neg (by omega), show q.b.toNat = n + 1 by omega, pow2_eq]

/-- Settles O28: the rule masks the value to the width, and `xorTop` moves it by the weight of the top bit. -/
theorem invtopInvertsTheTopBit : Obligations.InvtopInvertsTheTopBit := by
  intro s q hq ha hb
  have ho : operandsFit s.ports (slotUse .invtop) q = true := operandsFit_ab ha hb
  refine ⟨fun hw => answers_of_rule hq ho rfl (invtopRule_of_width_le_zero hw), ?_⟩
  rintro n _ _ hw rfl rfl hv
  refine answers_of_rule hq ho hv ((invtopRule_of_width_succ hw).trans ?_)
  rw [xorTop_succ]

/-! ### The parts of a concatenation (R61, R74) -/

section concatenation
variable {a b : Int} {m k : Nat} (hb : 0 ≤ b) (hb' : b < 2 ^ k)

include hb hb'

theorem slice_concat_upper (ha : 0 ≤ a) (ha' : a < 2 ^ m) {h : Nat} (hh : h + 1 = k + m) (hm : 1 ≤ m) :
    slice (concat a b k) h k = a := by
  rw [slice_eq, show h - k + 1 = m by omega, concat, pow2_eq, mul_comm, Int.mul_add_ediv_left _ _ (two_pow_pos k).ne',
    Int.ediv_eq_zero_of_lt hb hb', add_zero, Int.emod_eq_of_lt ha ha']

theorem slice_concat_lower {h : Nat} (hh : h + 1 = k) : slice (concat a b k) h 0 = b := by
  rw [slice_eq, Nat.sub_zero, hh, concat, pow2_eq, pow_zero, Int.ediv_one, mul_comm, Int.mul_add_emod_self_left,
    Int.emod_eq_of_lt hb hb']

end concatenation

theorem bfCatRule_eq_ret {q : Request} {c : Container} (h : bfCatRule q = .ret (.cont c)) :
    q.ca.wf ∧ q.cb.wf ∧ c = ⟨concat q.ca.data q.cb.data q.cb.width.toNat, q.ca.width + q.cb.width⟩ := by
  rw [bfCatRule, checked_eq_ret_iff, checked_eq_ret_iff] at h
  obtain ⟨hca, hcb, hret⟩ := h
  refine ⟨hca, hcb, ?_⟩
  simpa [Response.ret, eq_comm] using hret

/-- Settles O37: the answer is the concatenation, of which the two ranges are the slices above and below `B.width`. -/
theorem bfGetTakesAConcatenationApart : Obligations.BfGetTakesAConcatenationApart := by
  intro s t q c sub hq hports h hr hsub
  obtain ⟨hans, rfl⟩ := answers_of_exec_next h hr
  have hread {h l v : Int} (hwf : c.wf) (h0 : 0 ≤ l) (hl : l ≤ h) (hh : h < c.width)
      (hslice : slice c.data h.toNat l.toNat = v) : Answers .bfGet (sub h l) (.ret (.int v)) := by
    have hports' : (sub h l).ports = Config.reference := by rw [hsub]; exact hports
    rw [answers_reference (q := { q with ca := c, a := h, b := l }) (by rw [hsub]) hports']
    exact (bfGetRule_inside rfl rfl rfl hwf h0 hl hh hslice).symm
  obtain ⟨hca, hcb, rfl⟩ := bfCatRule_eq_ret ((answers_inFlight_iff hq).1 hans).2.2.symm
  have hcwf := concat_wf hca hcb
  obtain ⟨hwa, ha, ha'⟩ := hca
  obtain ⟨hwb, hb, hb'⟩ := hcb
  have hupper : q.cb.width ≤ q.ca.width + q.cb.width - 1 := by omega
  have htop : (q.ca.width + q.cb.width - 1).toNat + 1 = q.cb.width.toNat + q.ca.width.toNat := by omega
  have hlower : q.cb.width - 1 < q.ca.width + q.cb.width := by omega
  constructor
  · exact hread hcwf (by omega) hupper (sub_one_lt _) (slice_concat_upper hb hb' ha ha' htop (by omega))
  · exact hread hcwf le_rfl (by omega) hlower (slice_concat_lower hb hb' (by omega))

end Sys2Proof.Machine
end

/-! ## Symbol views (45_symbol_views.md): symbol accesses as bit accesses, and the operations' answers -/

section
namespace Sys2Proof.Machine

/-! ### Constructing a symbol view (R69) -/

/-- The fewest symbols are a least count: those that do are at least one, and hold the value. -/
theorem fewestSymbols_le_iff {sw : Nat} (hs : 0 < sw) {v : Int} (h0 : 0 ≤ v) (k : Nat) :
    fewestSymbols sw v ≤ k ↔ 1 ≤ k ∧ v < 2 ^ (sw * k) := by
  rw [fewestSymbols, ← Nat.ceilDiv_eq_add_pred_div, max_le_iff, ceilDiv_le_iff_le_mul hs, bitlen_le_iff h0]

theorem fewestSymbols_eq {sw : Nat} (hs : 0 < sw) {v : Int} (h0 : 0 ≤ v) {k : Nat} (hk : 1 ≤ k)
    (hlt : v < 2 ^ (sw * k)) (hleast : k = 1 ∨ 2 ^ (sw * (k - 1)) ≤ v) : fewestSymbols sw v = k := by
  refine le_antisymm ((fewestSymbols_le_iff hs h0 k).2 ⟨hk, hlt⟩) ?_
  rcases hleast with rfl | hge
  · exact le_max_left _ _
  · have hfewer : ¬ fewestSymbols sw v ≤ k - 1 := fun h => not_lt.2 hge ((fewestSymbols_le_iff hs h0 _).1 h).2
    omega

section new
variable {sz : SymWidth} {q : Request}

theorem svNewRule_of_neg (h : q.a < 0) (womit : Bool) : svNewRule sz womit q = .raise .domainError := if_pos h

theorem svNewRule_omitted (h0 : 0 ≤ q.a) {k : Nat} (hk : fewestSymbols (symbolBits sz) q.a = k) :
    svNewRule sz true q = .ret (.cont ⟨q.a, symbolBits sz * k⟩) := by
  rw [svNewRule, if_neg (not_lt.2 h0), if_pos rfl, hk]

/-- A count of symbols holds the values below the power of two of its bits. -/
theorem bitlen_le_symbols_iff {v n : Int} (h0 : 0 ≤ v) (hn : 0 ≤ n) (sw : Nat) :
    (bitlen v : Int) ≤ sw * n ↔ v < 2 ^ (sw * n.toNat) := by
  obtain ⟨k, rfl⟩ := Int.eq_ofNat_of_zero_le hn
  rw [Int.toNat_natCast, ← bitlen_le_iff h0]
  norm_cast

theorem svNewRule_tooFew (h0 : 0 ≤ q.a) (h : q.b ≤ 0 ∨ 2 ^ (symbolBits sz * q.b.toNat) ≤ q.a) :
    svNewRule sz false q = .raise .rangeError := by
  rw [svNewRule, if_neg (not_lt.2 h0), if_neg nofun]
  split
  · rfl
  · next hb =>
    have hfit := bitlen_le_symbols_iff h0 (Int.not_le.1 hb).le (symbolBits sz)
    rw [if_pos (not_le.1 (mt hfit.1 (not_lt.2 (h.resolve_left hb))))]

theorem svNewRule_enough (h0 : 0 ≤ q.a) (hb : 1 ≤ q.b) (h : q.a < 2 ^ (symbolBits sz * q.b.toNat)) :
    svNewRule sz false q = .ret (.cont ⟨q.a, symbolBits sz * q.b⟩) := by
  have hfit := (bitlen_le_symbols_iff h0 (by omega) (symbolBits sz)).2 h
  rw [svNewRule, if_neg (not_lt.2 h0), if_neg nofun, if_neg (by omega), if_neg (not_lt.2 hfit)]

end new

/-- Settles O29: the clauses of R69 are the cases of the rule, the fewest symbols being the least count that holds the
value. -/
theorem svNewConstructsASymbolView : Obligations.SvNewConstructsASymbolView := by
  intro s q sz womit sw hq ha hb hsw
  obtain rfl := hsw.trans (symbolBits_eq sz).symm
  have ho : operandsFit s.ports (slotUse (.svNew sz womit)) q = true := operandsFit_new ha hb
  refine ⟨fun hneg => ?_, ?_, ?_, ?_⟩
  · exact answers_of_rule hq ho rfl (svNewRule_of_neg hneg womit)
  · rintro rfl h0 k hk hlt hleast hfits
    have hfewest := fewestSymbols_eq (symbolBits_pos sz) h0 hk hlt hleast
    exact answers_of_rule hq ho hfits (svNewRule_omitted h0 hfewest)
  · rintro rfl h0 hfew
    exact answers_of_rule hq ho rfl (svNewRule_tooFew h0 hfew)
  · rintro rfl h0 hn hlt hfits
    exact answers_of_rule hq ho hfits (svNewRule_enough h0 hn hlt)

/-! ### The bits of a range of symbols (R68) -/

section symbols
variable {sw : Nat} (hs : 0 < sw) {h l w : Int}

include hs

/-- Symbols stand in the order of their bits. -/
theorem symbols_inverted_iff : (h + 1) * sw - 1 < l * sw ↔ h < l := by
  rw [Int.sub_one_lt_iff, mul_le_mul_iff_left₀ (by exact_mod_cast hs), Int.add_one_le_iff]

theorem symbol_negative_iff : l * sw < 0 ↔ l < 0 := by
  have hs' : (0 : Int) < sw := by exact_mod_cast hs
  rw [Int.mul_neg_iff]
  omega

/-- Symbols are out of order or not addressable exactly when their bits are. -/
theorem symbols_outside_iff :
    (h + 1) * sw - 1 < l * sw ∨ l * sw < 0 ∨ w ≤ (h + 1) * sw - 1 ↔ h < l ∨ l < 0 ∨ w < (h + 1) * sw := by
  rw [symbols_inverted_iff hs, symbol_negative_iff hs, Int.le_sub_one_iff]

/-- The test of a range of symbols is the test of the range of their bits. -/
theorem rangeGuarded_symbols (r : Response) : rangeGuarded ((h + 1) * sw - 1) (l * sw) w r =
    if h < l then .raise .rangeError else if l < 0 ∨ (h + 1) * sw > w then .raise .rangeError else r := by
  simp only [rangeGuarded, symbols_inverted_iff hs, symbol_negative_iff hs, ge_iff_le, Int.le_sub_one_iff, gt_iff_lt]

theorem symbols_inside (h0 : 0 ≤ l) (hl : l ≤ h) (hh : (h + 1) * sw ≤ w) :
    0 ≤ l * sw ∧ l * sw ≤ (h + 1) * sw - 1 ∧ (h + 1) * sw - 1 < w := by
  have houtside := symbols_outside_iff (h := h) (l := l) (w := w) hs
  omega

/-- The bits of symbols `h` down to `l`. -/
theorem slice_symbols (h0 : 0 ≤ l) (hl : l ≤ h) (n : Int) :
    slice n (symbolTop sw h) (symbolBottom sw l) = n / 2 ^ (l.toNat * sw) % 2 ^ ((h - l + 1).toNat * sw) := by
  have hl' : l = l.toNat := by omega
  obtain ⟨hspan, -⟩ := symbol_span hs (show h = h.toNat by omega) hl' (by omega)
  rw [slice_eq, hspan, symbolBottom_eq hl', show h.toNat - l.toNat + 1 = (h - l + 1).toNat by omega]

end symbols

/-! ### Symbol accesses as bit accesses (R70 to R73) -/

/-- The request for the access of bits `[(sh+1)*sw-1 : sl*sw]`, those of symbols `sh` down to `sl`, with `x` in the slot
of the value. -/
def Request.overSymbols (q : Request) (sw : Nat) (sh sl x : Int) : Request :=
  { q with a := (sh + 1) * sw - 1, b := sl * sw, c := x }

section access
variable (sz : SymWidth) (q : Request)

theorem svGetrRule_eq_bfGetRule (x : Int) :
    svGetrRule sz q = bfGetRule (q.overSymbols (symbolBits sz) q.a q.b x) := by
  rw [bfGetRule_eq, Request.overSymbols, rangeGuarded_symbols (symbolBits_pos sz)]
  rfl

theorem svSetrRule_eq_bfSetRule : svSetrRule sz q = bfSetRule (q.overSymbols (symbolBits sz) q.a q.b q.c) := by
  rw [bfSetRule_eq, Request.overSymbols, rangeGuarded_symbols (symbolBits_pos sz)]
  rfl

/-- One symbol is a range of symbols, which is never out of order. -/
theorem svGetRule_eq_svGetrRule : svGetRule sz q = svGetrRule sz { q with b := q.a } := by
  simp only [svGetRule, svGetrRule, lt_irrefl, if_false]

theorem svSetRule_eq_svSetrRule : svSetRule sz q = svSetrRule sz { q with b := q.a, c := q.b } := by
  simp only [svSetRule, svSetrRule, lt_irrefl, if_false]

end access

/-- With reference ports two instructions whose rules agree answer alike. -/
theorem answers_reference_congr {i j : Instr} {s t : State} {q q' : Request} (r : Response) (hq : s.inFlight = some q)
    (hs : s.ports = Config.reference) (ht : t = { s with inFlight := some q' }) (hrule : ruleOf i q = ruleOf j q') :
    Answers i s r ↔ Answers j t r := by
  subst ht
  rw [answers_reference hq hs, hrule]
  exact Iff.symm (answers_reference rfl hs)

/-- Settles O34: the rules of the symbol accesses are those of the bit accesses over the symbols' bits. -/
theorem symbolAccessIsBitRangeAccess : Obligations.SymbolAccessIsBitRangeAccess := by
  intro s q sz sw bits r hq hports hsw hbits
  obtain rfl : sw = symbolBits sz := by rw [hsw, symbolBits_eq]; push_cast; rfl
  refine ⟨?_, ?_, ?_, ?_⟩ <;> refine answers_reference_congr r hq hports (hbits _ _ _) ?_
  · exact (svGetRule_eq_svGetrRule sz q).trans (svGetrRule_eq_bfGetRule sz _ 0)
  · exact svGetrRule_eq_bfGetRule sz q 0
  · exact (svSetRule_eq_svSetrRule sz q).trans (svSetrRule_eq_bfSetRule sz _)
  · exact svSetrRule_eq_bfSetRule sz q

/-! ### Reading symbols (R70, R71) -/

theorem bfGetRule_outside {q : Request} (hwf : q.ca.wf) (hout : q.a < q.b ∨ q.b < 0 ∨ q.ca.width ≤ q.a) :
    bfGetRule q = .raise .rangeError := by
  rw [bfGetRule_eq, checked_wf hwf, rangeGuarded_outside hout]

section reads
variable {sz : SymWidth} {q : Request} (hwf : q.ca.wf)

include hwf

theorem svGetrRule_outside (hout : q.a < q.b ∨ q.b < 0 ∨ q.ca.width < (q.a + 1) * symbolBits sz) :
    svGetrRule sz q = .raise .rangeError :=
  (svGetrRule_eq_bfGetRule sz q 0).trans (bfGetRule_outside hwf ((symbols_outside_iff (symbolBits_pos sz)).2 hout))

theorem svGetrRule_inside (h0 : 0 ≤ q.b) (hl : q.b ≤ q.a) (hh : (q.a + 1) * symbolBits sz ≤ q.ca.width) :
    svGetrRule sz q = .ret (.int (q.ca.data / 2 ^ (q.b.toNat * symbolBits sz) %
      2 ^ ((q.a - q.b + 1).toNat * symbolBits sz))) := by
  obtain ⟨hbottom, hordered, htop⟩ := symbols_inside (symbolBits_pos sz) h0 hl hh
  rw [svGetrRule_eq_bfGetRule sz q 0]
  exact bfGetRule_inside rfl rfl rfl hwf hbottom hordered htop (slice_symbols (symbolBits_pos sz) h0 hl _)

end reads

/-- Settles O31: the slice of the symbols' bits is the quotient by the weight of the lowest, cut to those bits. -/
theorem svGetrReadsSymbols : Obligations.SvGetrReadsSymbols := by
  intro s q sz sw hq hca ha hb hwf hsw
  obtain rfl := hsw.trans (symbolBits_eq sz).symm
  have ho : operandsFit s.ports (slotUse (.svGetr sz)) q = true := operandsFit_cont_ab hca ha hb
  refine ⟨fun hout => answers_of_rule hq ho rfl (svGetrRule_outside hwf hout), ?_⟩
  rintro h0 hl hh _ rfl hv
  exact answers_of_rule hq ho hv (svGetrRule_inside hwf h0 hl hh)

/-- Settles O30: a symbol is the range of that one symbol. -/
theorem svGetReadsASymbol : Obligations.SvGetReadsASymbol := by
  intro s q sz sw hq hca ha hwf hsw
  obtain rfl := hsw.trans (symbolBits_eq sz).symm
  have ho : operandsFit s.ports (slotUse (.svGet sz)) q = true := operandsFit_cont_a hca ha
  have hrule := svGetRule_eq_svGetrRule sz q
  refine ⟨fun hout => answers_of_rule hq ho rfl (hrule.trans (svGetrRule_outside hwf (.inr hout))), ?_⟩
  rintro h0 hh _ rfl hv
  refine answers_of_rule hq ho hv ((hrule.trans (svGetrRule_inside hwf h0 le_rfl hh)).trans ?_)
  rw [sub_self, zero_add, Int.toNat_one, one_mul]

/-! ### Writing symbols (R72, R73) -/

section writes
variable {sz : SymWidth} {q : Request} (hwf : q.ca.wf)

include hwf

theorem bfSetRule_outside (hout : q.a < q.b ∨ q.b < 0 ∨ q.ca.width ≤ q.a) : bfSetRule q = .raise .rangeError := by
  rw [bfSetRule_eq, checked_wf hwf, rangeGuarded_outside hout]

theorem bfSetRule_inside (h0 : 0 ≤ q.b) (hl : q.b ≤ q.a) (hh : q.a < q.ca.width) :
    bfSetRule q = writeRange q.ca q.a.toNat q.b.toNat q.c := by
  rw [bfSetRule_eq, checked_wf hwf, rangeGuarded_inside h0 hl hh]

theorem svSetrRule_outside (hout : q.a < q.b ∨ q.b < 0 ∨ q.ca.width < (q.a + 1) * symbolBits sz) :
    svSetrRule sz q = .raise .rangeError :=
  (svSetrRule_eq_bfSetRule sz q).trans (bfSetRule_outside hwf ((symbols_outside_iff (symbolBits_pos sz)).2 hout))

/-- Of addressable symbols `sv.setr` is the write of the range of their bits. -/
theorem svSetrRule_inside {h l : Nat} (ha : q.a = h) (hb : q.b = l) (hl : l ≤ h)
    (hh : (h + 1) * (symbolBits sz : Int) ≤ q.ca.width) :
    svSetrRule sz q = writeRange q.ca (symbolTop (symbolBits sz) h) (symbolBottom (symbolBits sz) l) q.c := by
  obtain ⟨hbottom, hordered, htop⟩ := symbols_inside (symbolBits_pos sz) l.cast_nonneg (by exact_mod_cast hl) hh
  rw [svSetrRule_eq_bfSetRule, ha, hb]
  exact bfSetRule_inside hwf hbottom hordered htop

theorem svSetRule_outside (hout : q.a < 0 ∨ q.ca.width < (q.a + 1) * symbolBits sz) :
    svSetRule sz q = .raise .rangeError :=
  (svSetRule_eq_svSetrRule sz q).trans (svSetrRule_outside hwf (.inr hout))

theorem svSetRule_inside {k : Nat} (ha : q.a = k) (hh : (k + 1) * (symbolBits sz : Int) ≤ q.ca.width) :
    svSetRule sz q = writeRange q.ca (symbolTop (symbolBits sz) k) (symbolBottom (symbolBits sz) k) q.b :=
  (svSetRule_eq_svSetrRule sz q).trans (svSetrRule_inside (q := { q with b := q.a, c := q.b }) hwf ha ha le_rfl hh)

end writes

section symbolWrites
variable {sw : Nat} (hs : 0 < sw) {h l : Nat} (hl : l ≤ h) {x : Int}

include hs hl

theorem writeRange_symbols_outside (c : Container) (hx : x < -1 ∨ 2 ^ ((h - l + 1) * sw) ≤ x) :
    writeRange c (symbolTop sw h) (symbolBottom sw l) x = .raise .rangeError := by
  obtain ⟨hspan, -⟩ := symbol_span hs (Eq.refl (h : Int)) rfl hl
  exact writeRange_outside (by rwa [hspan])

/-- An instruction whose rule comes to a write of symbols that fits answers the written container. -/
theorem answers_writeRange_symbols {i : Instr} {s : State} {q : Request} (hq : s.inFlight = some q)
    (ho : operandsFit s.ports (slotUse i) q = true) (hca : contFits s.ports q.ca = true) (hwf : q.ca.wf)
    (hh : (h + 1) * (sw : Int) ≤ q.ca.width) (hx : -1 ≤ x) (hx' : x < 2 ^ ((h - l + 1) * sw))
    (hrule : ruleOf i q = writeRange q.ca (symbolTop sw h) (symbolBottom sw l) x) :
    ∃ d, Answers i s (.ret (.cont ⟨d, q.ca.width⟩)) ∧ Container.wf ⟨d, q.ca.width⟩ ∧
      ∀ j : Nat, d / 2 ^ j % 2 =
        if l * sw ≤ j ∧ j < (h + 1) * sw then (if x = -1 then 1 else x / 2 ^ (j - l * sw) % 2)
        else q.ca.data / 2 ^ j % 2 := by
  obtain ⟨hspan, hordered⟩ := symbol_span hs (Eq.refl (h : Int)) rfl hl
  have hbottom := symbolBottom_eq (sw := sw) (Eq.refl (l : Int))
  have htop := symbolTop_succ hs (Eq.refl (h : Int))
  have hfits : (symbolTop sw h : Int) < q.ca.width := by zify at htop; omega
  have hwrite := answers_writeRange hq ho hca hwf hordered hfits hx (by rwa [hspan]) hrule
  simpa only [hbottom, ← htop, Nat.lt_add_one_iff] using hwrite

end symbolWrites

/-- Settles O33: past the tests the rule is the write of the symbols' bits. -/
theorem svSetrWritesSymbols : Obligations.SvSetrWritesSymbols := by
  intro s q sz sw hq hca ha hb hc hwf hsw
  obtain rfl := hsw.trans (symbolBits_eq sz).symm
  have ho : operandsFit s.ports (slotUse (.svSetr sz)) q = true := operandsFit_cont_abc hca ha hb hc
  refine ⟨fun hout => answers_of_rule hq ho rfl (svSetrRule_outside hwf hout), fun h l hh hl hle hw => ?_⟩
  have hwrite := svSetrRule_inside hwf hh hl hle hw
  refine ⟨fun hx => ?_, fun hx hx' => ?_⟩
  · exact answers_of_rule hq ho rfl (hwrite.trans (writeRange_symbols_outside (symbolBits_pos sz) hle _ hx))
  · exact answers_writeRange_symbols (symbolBits_pos sz) hle hq ho hca hwf hw hx hx' hwrite

/-- Settles O32: a symbol is the range of that one symbol. -/
theorem svSetWritesASymbol : Obligations.SvSetWritesASymbol := by
  intro s q sz sw hq hca ha hb hwf hsw
  obtain rfl := hsw.trans (symbolBits_eq sz).symm
  have ho : operandsFit s.ports (slotUse (.svSet sz)) q = true := operandsFit_cont_ab hca ha hb
  have hone (k : Nat) : (k - k + 1) * symbolBits sz = symbolBits sz := by rw [Nat.sub_self, zero_add, one_mul]
  refine ⟨fun herr => answers_of_rule hq ho rfl ?_, fun k hk hw hx hx' => ?_⟩
  · by_cases hout : q.a < 0 ∨ q.ca.width < (q.a + 1) * symbolBits sz
    · exact svSetRule_outside hwf hout
    · obtain ⟨k, hk⟩ := Int.eq_ofNat_of_zero_le (show 0 ≤ q.a by omega)
      have hvalue := (or_assoc.2 herr).resolve_left hout
      refine (svSetRule_inside hwf hk (by rw [← hk]; omega)).trans ?_
      exact writeRange_symbols_outside (symbolBits_pos sz) le_rfl _ (by rwa [hone])
  · have hfits : q.b < 2 ^ ((k - k + 1) * symbolBits sz) := by rwa [hone]
    exact answers_writeRange_symbols (symbolBits_pos sz) le_rfl hq ho hca hwf hw hx hfits (svSetRule_inside hwf hk hw)

end Sys2Proof.Machine
end

/-! ## The concatenator (46_concatenator.md): the answer of `bf.cat` -/

section
namespace Sys2Proof.Machine

theorem operandsFit_conts {p : Config.Ports} {q : Request} (ha : contFits p q.ca = true)
    (hb : contFits p q.cb = true) : operandsFit p ⟨2, 0⟩ q = true := by
  simp [operandsFit, Request.contsRead, Request.intsRead, ha, hb]

/-- The converse of `bfCatRule_eq_ret`: well-formed containers pass both checks. -/
theorem bfCatRule_of_wf {q : Request} (ha : q.ca.wf) (hb : q.cb.wf) :
    bfCatRule q = .ret (.cont ⟨concat q.ca.data q.cb.data q.cb.width.toNat, q.ca.width + q.cb.width⟩) := by
  rw [bfCatRule, checked_wf ha, checked_wf hb]

/-- Settles O36: the container of the statement is the concatenation that the rule answers. -/
theorem bfCatJoinsTwoContainers : Obligations.BfCatJoinsTwoContainers := by
  rintro s q c hq hfa hfb ha hb rfl
  rw [← pow2_eq, ← concat]
  exact ⟨concat_wf ha hb, fun hc => answers_of_rule hq (operandsFit_conts hfa hfb) hc (bfCatRule_of_wf ha hb)⟩

end Sys2Proof.Machine
end

/-! ## Exceptions and reset (60_exceptions.md, 70_reset_and_hazards.md): statuses, their priority, reset taking effect -/

section
namespace Sys2Proof.Machine

/-! ### The statuses of an operation (R75 to R77) -/

/-- A response within an operation's list of errors has the status OK or one of that list. -/
theorem AnswersWithin.status {k : PayloadKind} {errors : List Status} {r : Response}
    (h : AnswersWithin k errors r) : r.status = .ok ∨ r.status ∈ errors := by
  rcases h with ⟨p, rfl, -, -⟩ | ⟨e, he, -, rfl⟩
  · exact .inl rfl
  · exact .inr he

/-- Settles O40: the response delivered is the rule's (`exec_next`), and `rule_within` says which errors each rule
raises. -/
theorem operationsRaiseOnlyTheirErrors : Obligations.OperationsRaiseOnlyTheirErrors := by
  intro i s t r h hr
  obtain ⟨q, -, -, -, rfl⟩ := exec_next h
  obtain rfl : ruleOf i q = r := Option.some.inj hr
  exact (rule_within i q).status

/-- The reserved codes are those between the errors of the rules and IllegalCommand. -/
theorem statusCode_not_reserved (e : Status) : statusCode e ∉ [4#3, 5#3, 6#3] := by
  cases e <;> decide

/-- Settles O42: five codes as defined, none of them reserved. -/
theorem statusCodesOfTheTaxonomy : Obligations.StatusCodesOfTheTaxonomy :=
  ⟨rfl, rfl, rfl, rfl, rfl, statusCode_not_reserved⟩

/-! ### The priority of errors (R81) -/

/-- A direction that names no policy is tested before the sign of the value (R55). -/
theorem uroundRule_unsupported (clp : Bool) (q : Request) :
    uroundRule .unsupported clp q = .raise .configurationError := rfl

/-- A direction that names no policy is tested before the gain (R57). -/
theorem requantRule_unsupported (rlsb cmsb : Bool) (q : Request) :
    requantRule .unsupported rlsb cmsb q = .raise .configurationError := rfl

/-- A step answers a word that names no operation with IllegalCommand, whatever the slots and the ports (R78, R81). -/
theorem step_of_illegal {s : State} {q : Request} (hr : s.resetAsserted = false) (hq : s.inFlight = some q)
    (hd : decode q.cmd = none) : step s = .next (receive (s.deliver (.raise .illegalCommand))) := by
  rw [step_of_inFlight hr hq, answerWord_of_illegal hd]

/-- Settles O41: each rule tests the error of higher priority first, so the other test is not reached; and a word that
decodes to nothing runs no rule. -/
theorem errorsAreReportedByPriority : Obligations.ErrorsAreReportedByPriority := by
  intro s q hq hp
  have answers_rule : ∀ {i r}, ruleOf i q = r → Answers i s r := fun h => (answers_reference hq hp).2 h.symm
  refine ⟨fun _ clp => ?_, fun _ rlsb cmsb => ?_, fun hneg _ => ⟨?_, fun sw => ?_⟩, fun hd hr => ?_⟩
  · exact answers_rule (uroundRule_unsupported clp q)
  · exact answers_rule (requantRule_unsupported rlsb cmsb q)
  · exact answers_rule (bfNewRule_of_neg hneg false)
  · exact answers_rule (svNewRule_of_neg hneg false)
  · exact ⟨_, step_of_illegal hr hq hd, receive_response _⟩

/-! ### Reset taking effect (R89, R90) -/

/-- Reset is taken whatever request is in flight. -/
theorem step_of_reset {s : State} (hr : s.resetAsserted = true) : step s = .next (takeReset s) := if_pos hr

/-- Settles O55: the step is reset taking effect, which leaves an empty store. -/
theorem resetDropsTheRequestAndTheVariables : Obligations.ResetDropsTheRequestAndTheVariables := by
  intro s hr
  exact ⟨takeReset s, step_of_reset hr, takeReset_inFlight s, takeReset_response s, lookup_nil,
    takeReset_resetAsserted s⟩

end Sys2Proof.Machine
end
